-- ==== Sys2Proof/Word.lean ====
section
/-! DEFINITION. The bit vectors of the block (00_scope.md R9) and the three encoding spaces (30_encoding.md R64). -/

namespace Sys2Proof

/-- A byte of a frame, of an event operand or of `RBUF`. -/
abbrev Byte := BitVec 8

/-- The accumulator and the raw fields: 16 bits (R15, R16, R19). -/
abbrev Word := BitVec 16

/-- The seven device-info bytes: 56 bits (R15, R19). -/
abbrev InfoWord := BitVec 56

/-- EV12, the event word (R64, R65). -/
abbrev EventWord := BitVec 12

/-- REQ24, the request frame as one number, byte 0 most significant (R64, R70). -/
abbrev RequestWord := BitVec 24

/-- A pattern in one of the three encoding spaces, which must not be confused (R64). -/
inductive Code where
  /-- EV12: a word on `EV[11:0]`. -/
  | event (w : EventWord)
  /-- REQ24: a request frame on the wire, block to sensor. -/
  | request (w : RequestWord)
  /-- RESP: the bytes of a response frame in wire order, sensor to block. -/
  | response (bytes : List Byte)
  deriving DecidableEq, Repr

end Sys2Proof
end

