-- ==== Sys2Proof/Config.lean ====
section
/-! DEFINITION. The constants of the block (00_scope.md R6, R7), the codes its registers hold, and its open parameters (R8). -/

namespace Sys2Proof.Config

/-! ## Constants fixed by the source (R6) and what follows from them (R7) -/

/-- `CRC_INIT` (R6). -/
@[simp] abbrev crcInit : Word := 0xFFFF#16
/-- `CRC_POLY` (R6). -/
@[simp] abbrev crcPoly : Word := 0xA001#16
/-- `BITS_PER_BYTE` (R6). -/
@[simp] abbrev bitsPerByte : Nat := 8
/-- `FC_READ` (R6). -/
@[simp] abbrev fcRead : Byte := 0x03#8
/-- `RESP_OVERHEAD` (R6): function code, count field and the two CRC bytes. -/
@[simp] abbrev respOverhead : Nat := 4
/-- `CRC_LEN` (R6): the trailing CRC bytes of a response. -/
@[simp] abbrev crcLen : Nat := 2
/-- `SCALE` (R6), the divisor from a raw field to its physical value. -/
@[simp] abbrev scale : Nat := 10
/-- `RBUF_LEN` (R7). -/
@[simp] abbrev rbufLen : Nat := 11

/-! ## Codes of the registers -/

/-- Values of `PHASE` (R22); 3 is never reached. -/
@[simp] abbrev phaseIdle : BitVec 2 := 0#2
@[simp] abbrev phaseTx : BitVec 2 := 1#2
@[simp] abbrev phaseRx : BitVec 2 := 2#2

/-- Values of `OP` (R17, R67). -/
@[simp] abbrev opHum : BitVec 2 := 0#2
@[simp] abbrev opTemp : BitVec 2 := 1#2
@[simp] abbrev opBoth : BitVec 2 := 2#2
@[simp] abbrev opInfo : BitVec 2 := 3#2

/-- Values of `STATUS` (R26, R130). -/
@[simp] abbrev stNone : BitVec 2 := 0#2
@[simp] abbrev stOk : BitVec 2 := 1#2
@[simp] abbrev stProtocolError : BitVec 2 := 2#2
@[simp] abbrev stTransportError : BitVec 2 := 3#2

/-- Values of `FAULT` (R27, R134). -/
@[simp] abbrev fNone : BitVec 2 := 0#2
@[simp] abbrev fIllegal : BitVec 2 := 1#2
@[simp] abbrev fBusy : BitVec 2 := 2#2
@[simp] abbrev fUnexpected : BitVec 2 := 3#2

/-! ## Open parameters (R8): no rule, and no definition of this model, depends on one (log 12) -/

/-- `DEV_ADDR`, the transport's 7-bit device address (R54); open, default `defaultDevAddr`. -/
opaque devAddr : BitVec 7
/-- "0xB8 >> 1 = 0x5C" (R54). -/
def defaultDevAddr : BitVec 7 := 0x5C#7
/-- `FLOAT_FMT`: the bit pattern, as a number, that a host's format gives a physical value (R121). -/
opaque floatFmt : Rat → Nat
/-- `CYCLES_PER_EVENT` (R163). -/
opaque cyclesPerEvent : Nat
/-- `SENSOR_MAP`: the sensor's registers that no rule names (R57). -/
opaque sensorMap : Byte → Byte
/-- `WAKE_SEQ`: what the session writes to wake the sensor (R155). -/
opaque wakeSeq : List Byte

end Sys2Proof.Config
end

