-- ==== Sys2Proof/Machine/Bytes.lean ====
section
/-! DEFINITION. Byte order in one place: the two bytes of a 16-bit value, the seven of the device info, and their inverses. -/

namespace Sys2Proof.Machine

/-- `v[15:8]`. -/
def hiByte (v : Word) : Byte := v.extractLsb' 8 8

/-- `v[7:0]`. -/
def loByte (v : Word) : Byte := v.extractLsb' 0 8

/-- `hi ‖ lo`, the first byte more significant: the big-endian field of R43, R77. -/
def joinBytes (hi lo : Byte) : Word := hi ++ lo

/-- Byte `k` of the device info, `k = 0` the most significant: `INFO[55:48]` is response byte 2,
`INFO[7:0]` response byte 8 (R19). -/
def infoByte (d : InfoWord) (k : Nat) : Byte := d.extractLsb' (8 * (6 - k)) 8

/-- `b2 ‖ b3 ‖ b4 ‖ b5 ‖ b6 ‖ b7 ‖ b8` (R77). -/
def joinInfo (b2 b3 b4 b5 b6 b7 b8 : Byte) : InfoWord :=
  b2 ++ b3 ++ b4 ++ b5 ++ b6 ++ b7 ++ b8

/-- Index `i` of a byte sequence (R10). The rules use it only below the sequence's length. -/
def byteAt (r : List Byte) (i : Nat) : Byte := r.getD i 0

end Sys2Proof.Machine
end

