-- ==== Sys2Proof/Machine/Crc.lean ====
section
/-! DEFINITION. Unit C's pure functions (40_crc_engine.md R87 to R92). -/

namespace Sys2Proof.Machine

/-- `crc_shift` (R87): bit 0 is tested before the logical shift, the constant is XORed after it. -/
def crcShift (a : Word) : Word :=
  if a.getLsbD 0 then (a >>> 1) ^^^ Config.crcPoly else a >>> 1

/-- `crc_shift` applied `n` times. -/
def crcShifts : Nat → Word → Word
  | 0, a => a
  | n + 1, a => crcShifts n (crcShift a)

/-- `crc_byte` (R88): one XOR into the low eight bits, then exactly eight shifts. -/
def crcByte (a : Word) (b : Byte) : Word :=
  crcShifts Config.bitsPerByte (a ^^^ b.setWidth 16)

/-- `crc_run` (R89): `crc_byte` folded over a sequence, first byte first. -/
def crcRun : Word → List Byte → Word
  | a, [] => a
  | a, b :: rest => crcRun (crcByte a b) rest

/-- `crc16` (R89): from 0xFFFF, with no final XOR. -/
def crc16 (s : List Byte) : Word := crcRun Config.crcInit s

/-- `to_bytes` (R91): high byte first. -/
def toBytes (c : Word) : List Byte := [hiByte c, loByte c]

/-- `crc_wire` (R92): the order of a response frame, low byte first. -/
def crcWire (c : Word) : List Byte := [loByte c, hiByte c]

end Sys2Proof.Machine
end

