-- ==== Sys2Proof/Machine/Operands.lean ====
section
/-! DEFINITION. The operation table and its views (10_state.md R17, 30_encoding.md R72, R76), the frames (R70, R71), validation and extraction (42_frame_response.md R117, R118), scaling (R121), and the sensor registers a request names (R57). -/

namespace Sys2Proof.Machine

/-! ## The operation table (R17, R72) -/

/-- `REQ_FC`, hardwired to 0x03 for every `OP` (R17, R21). -/
def reqFc (_op : BitVec 2) : Byte := Config.fcRead

/-- `REQ_START` (R17). -/
def reqStart (op : BitVec 2) : Byte :=
  if op = Config.opTemp then 0x02 else if op = Config.opInfo then 0x08 else 0x00

/-- `REQ_COUNT` (R17). -/
def reqCount (op : BitVec 2) : Byte :=
  if op = Config.opBoth then 0x04 else if op = Config.opInfo then 0x07 else 0x02

/-- `RLEN = zext_4(REQ_COUNT[2:0]) + 4` (R76): 6, 6, 8, 11. -/
def rlen (op : BitVec 2) : BitVec 4 := ((reqCount op).extractLsb' 0 3).setWidth 4 + 4

/-- `RLEN` as the number the rules compare and subtract with (R9). -/
def respLen (op : BitVec 2) : Nat := (rlen op).toNat

/-- `crc_check_len = RLEN - 2` (R76, R116): how many bytes the CRC of a response covers. -/
def crcCheckLen (op : BitVec 2) : Nat := respLen op - Config.crcLen

/-- `request_frame` (R100), index 0 sent first. -/
def requestFrame (op : BitVec 2) : List Byte := [reqFc op, reqStart op, reqCount op]

/-- The addresses a request names: `count` registers of one byte from `start` (R57, R72). -/
def requestedRegisters (op : BitVec 2) : List Nat :=
  (List.range (reqCount op).toNat).map ((reqStart op).toNat + ·)

/-! ## The response patterns (R71, R74) -/

/-- The bytes of a HUM or TEMP response that its CRC covers. -/
def coveredField (v : Word) : List Byte := [Config.fcRead, 0x02, hiByte v, loByte v]

/-- The bytes of a BOTH response that its CRC covers. -/
def coveredBoth (h t : Word) : List Byte :=
  [Config.fcRead, 0x04, hiByte h, loByte h, hiByte t, loByte t]

/-- The bytes of an INFO response that its CRC covers. -/
def coveredInfo (d : InfoWord) : List Byte :=
  [Config.fcRead, 0x07, infoByte d 0, infoByte d 1, infoByte d 2, infoByte d 3, infoByte d 4,
    infoByte d 5, infoByte d 6]

/-- A whole response frame: the covered bytes, then the CRC low byte, then the high byte (R44, R71). -/
def responseFrame (covered : List Byte) (crc : Word) : List Byte := covered ++ crcWire crc

/-! ## Validation and extraction (R117, R118) -/

/-- `response_valid` (R117), for `r` of length `count(op) + 4`. -/
def responseValid (op : BitVec 2) (r : List Byte) : Bool :=
  let c := crc16 (r.take (r.length - Config.crcLen))
  byteAt r 0 == reqFc op && byteAt r 1 == reqCount op &&
    byteAt r (r.length - 2) == loByte c && byteAt r (r.length - 1) == hiByte c

/-- The raw fields a response carries, absent where the operation extracts none (R118). -/
structure RawFields where
  hum : Option Word
  temp : Option Word
  info : Option InfoWord
  deriving DecidableEq, Repr

/-- The big-endian 16-bit field at index `i` (R43, R77). -/
def fieldAt (r : List Byte) (i : Nat) : Word := joinBytes (byteAt r i) (byteAt r (i + 1))

/-- The device-info group, indices 2 to 8 (R77). -/
def infoAt (r : List Byte) : InfoWord :=
  joinInfo (byteAt r 2) (byteAt r 3) (byteAt r 4) (byteAt r 5) (byteAt r 6) (byteAt r 7) (byteAt r 8)

/-- `extract` (R118). -/
def extract (op : BitVec 2) (r : List Byte) : RawFields :=
  if op = Config.opHum then ⟨some (fieldAt r 2), none, none⟩
  else if op = Config.opTemp then ⟨none, some (fieldAt r 2), none⟩
  else if op = Config.opBoth then ⟨some (fieldAt r 2), some (fieldAt r 4), none⟩
  else ⟨none, none, some (infoAt r)⟩

/-- `phys` (R121): the exact rational, applied by a host to the unsigned raw field (R120). -/
def phys (raw : Word) : Rat := (raw.toNat : Rat) / (Config.scale : Rat)

end Sys2Proof.Machine
end

