-- ==== Sys2Proof/Machine/State.lean ====
section
/-! DEFINITION. The state of the block (10_state.md R15), the model's input list, the reasons a step can stop, and the state after reset (R152). -/

namespace Sys2Proof.Machine

/-- `RBUF` as (index, byte) pairs; canonical form: `Memory.wf`. -/
abbrev Memory := List Host.Cell

/-- What a byte of `RBUF` that is not listed reads as. The spec leaves it open and no rule can
observe it (R32, U15). DESIGN CHOICE (log 2). -/
abbrev Memory.unlisted : BitVec 8 := 0x00#8

/-- What the environment presents in one step: the pin `rst` (R151), and a pattern, absent when
`ev_valid = 0` (R65). An event pattern is what the event port carries. A request or response frame
stands for the transport's whole `write` or `read` of it (R49, R84; log 6, log 7). -/
structure Presented where
  rst : Bool
  code : Option Code
  deriving DecidableEq, Repr

/-- The 209 bits of R15, and `inputs`, the model's own field: what the environment presents in the
coming steps, the next one first (R38: the event is an input of the step; log 1). -/
structure State where
  /-- `ACC`, the CRC accumulator (R16). -/
  acc : Word
  /-- `PHASE` (R22). -/
  phase : BitVec 2
  /-- `OP` (R18). -/
  op : BitVec 2
  /-- `TIDX` (R23). -/
  tidx : BitVec 2
  /-- `RIDX` (R24). -/
  ridx : BitVec 4
  /-- `RBUF[0]` to `RBUF[10]` (R20). -/
  rbuf : Memory
  /-- `STATUS` (R26). -/
  status : BitVec 2
  /-- `FAULT` (R27). -/
  fault : BitVec 2
  /-- `HUM` (R19). -/
  hum : Word
  /-- `HUM_V` (R25). -/
  humV : Bool
  /-- `TEMP` (R19). -/
  temp : Word
  /-- `TEMP_V` (R25). -/
  tempV : Bool
  /-- `INFO` (R19). -/
  info : InfoWord
  /-- `INFO_V` (R25). -/
  infoV : Bool
  /-- The model's own: what the environment presents from here on (log 1). -/
  inputs : List Presented
  deriving DecidableEq, Repr

/-- The reasons a step stops with a fault. The spec's own faults are recorded in `FAULT` and the
block goes on (R136); these two only answer for states that no run reaches. -/
inductive Fault where
  /-- T.RXBYTE admitted with `RIDX` above 10: `RBUF` has no such byte (R11, R48). Unreachable by R36
  item 3; safe (log 3). -/
  | rbufIndex
  /-- T.TXACK admitted with `TIDX` = 3: the sum would exceed `TIDX` (R9, R107). Unreachable by R36
  item 2; safe (log 4). -/
  | tidxRange
  deriving DecidableEq, Repr

/-- The reasons a step has no meaning. -/
inductive Refusal where
  /-- Raised by `exec` for an instruction without a meaning; no arm raises it. Safe. -/
  | notModelled (mnemonic : String)
  /-- Raised by the step for a 24-bit pattern that is none of the four request frames: the block
  "cannot be made to emit any other request" (R79, V4), so the environment can take no such frame
  from it. Safe (log 9). -/
  | requestNeverEmitted
  deriving DecidableEq, Repr

/-- The three outcomes of a step or a meaning. -/
abbrev Outcome := Host.Outcome State Fault Refusal

/-- The state after the first RESET (R152), `RBUF` unspecified there (R32; log 2), nothing presented. -/
def State.reset : State where
  acc := Config.crcInit
  phase := Config.phaseIdle
  op := Config.opHum
  tidx := 0#2
  ridx := 0#4
  rbuf := []
  status := Config.stNone
  fault := Config.fNone
  hum := 0#16
  humV := false
  temp := 0#16
  tempV := false
  info := 0#56
  infoV := false
  inputs := []

end Sys2Proof.Machine
end

