-- ==== Sys2Proof/Machine/Flags.lean ====
section
/-! DEFINITION. The one-bit observables (10_state.md R25): the valid bits of a successful transaction end, and the flags derived from `PHASE`. -/

namespace Sys2Proof.Machine

/-- `HUM_V` after an ST_OK end: set exactly when the operation extracts humidity (R25, R119). -/
def humValid (f : RawFields) : Bool := f.hum.isSome

/-- `TEMP_V` after an ST_OK end (R25, R119). -/
def tempValid (f : RawFields) : Bool := f.temp.isSome

/-- `INFO_V` after an ST_OK end (R25, R119). -/
def infoValid (f : RawFields) : Bool := f.info.isSome

/-- `busy = (PHASE != 0)` (R25). -/
def busy (s : State) : Bool := s.phase != Config.phaseIdle

/-- `tx_valid = (PHASE == 1)` (R33). -/
def txValid (s : State) : Bool := s.phase == Config.phaseTx

/-- `rx_ready = (PHASE == 2)` (R33). -/
def rxReady (s : State) : Bool := s.phase == Config.phaseRx

end Sys2Proof.Machine
end

