-- ==== Sys2Proof/Machine/Ops.lean ====
section
/-! DEFINITION. The named operations over `RBUF` and the registers: byte read and write, fault entry (60_exceptions.md R136), transaction end (R137), RESET (70_reset_and_hazards.md R152), admission (R135), and the shared parts of the events. -/

namespace Sys2Proof.Machine

/-! ## RBUF (R11, R42, R56) -/

/-- The canonical form: indices strictly rising and below 11, no entry equal to an unlisted byte. -/
def Memory.wf : Memory → Bool
  | [] => true
  | (a, b) :: m =>
    decide (a < Config.rbufLen) && (b != Memory.unlisted) && m.all (fun c => decide (a < c.1)) && Memory.wf m

/-- `RBUF[i]`. -/
def Memory.read : Memory → Nat → Byte
  | [], _ => Memory.unlisted
  | (a, b) :: m, i => if a = i then b else Memory.read m i

/-- `RBUF[i] <- v`, keeping the canonical form. -/
def Memory.write : Memory → Nat → Byte → Memory
  | [], i, v => if v = Memory.unlisted then [] else [(i, v)]
  | (a, b) :: m, i, v =>
    if i < a then (if v = Memory.unlisted then (a, b) :: m else (i, v) :: (a, b) :: m)
    else if i = a then (if v = Memory.unlisted then m else (i, v) :: m)
    else (a, b) :: Memory.write m i v

/-- The bytes `RBUF[i .. i + n)`, in index order; `MemRead(i, n)` (R11) is their concatenation,
which `fieldAt` and `infoAt` form. -/
def memBytes (m : Memory) (i n : Nat) : List Byte := (List.range n).map fun k => Memory.read m (i + k)

/-- `RBUF[0 .. RLEN)`, the `r` of `complete()` (R115). -/
def received (s : State) : List Byte := memBytes s.rbuf 0 (respLen s.op)

/-! ## Fault entry, transaction end, RESET -/

/-- `raise Fault(c)` (R136): the first cause since reset is kept, nothing else changes, and there is
no handler and no return (R142): only RESET clears `FAULT`. -/
def raiseFault (c : BitVec 2) (s : State) : State :=
  { s with fault := if s.fault = Config.fNone then c else s.fault }

/-- The result registers and valid bits, all zero (R137, R101). -/
def clearResults (s : State) : State :=
  { s with hum := 0#16, humV := false, temp := 0#16, tempV := false, info := 0#56, infoV := false }

/-- `finish(st)` (R137). With ST_OK the result registers are written by `writeResults` in the same step. -/
def finish (st : BitVec 2) (s : State) : State :=
  let t := if st = Config.stOk then s else clearResults s
  { t with phase := Config.phaseIdle, status := st }

/-- The result registers after `finish(ST_OK)` (R119): the fields `extract` gives, the others zero
and invalid. -/
def writeResults (s : State) : State :=
  let f := extract s.op (received s)
  { s with
    hum := f.hum.getD 0
    humV := humValid f
    temp := f.temp.getD 0
    tempV := tempValid f
    info := f.info.getD 0
    infoV := infoValid f }

/-- RESET (R151, R152): every register to its reset value but `RBUF`, which keeps its bytes. It is a
pin and says nothing of what the environment presents later (log 11). -/
def resetPin (s : State) : State := { State.reset with rbuf := s.rbuf, inputs := s.inputs }

/-! ## Admission (R135, R138 item 4) -/

/-- The event's own rule runs in the one phase that admits it; in any other value of `PHASE` the
event faults and has no other effect (R135, R136; log 5). -/
def admitPhase (phase cause : BitVec 2) (run : State → Outcome) (s : State) : Outcome :=
  if s.phase = phase then run s else .next (raiseFault cause s)

/-- The admission of a host event: only in IDLE, else F_BUSY. -/
def admitHost (run : State → Outcome) (s : State) : Outcome :=
  admitPhase Config.phaseIdle Config.fBusy run s

/-- The admission of a transport event: only in its phase, else F_UNEXPECTED. -/
def admitTransport (phase : BitVec 2) (run : State → Outcome) (s : State) : Outcome :=
  admitPhase phase Config.fUnexpected run s

/-! ## The shared parts of the events -/

/-- What an admitted RD event writes (R101). -/
def startRead (op : BitVec 2) (s : State) : State :=
  { clearResults s with
    op := op
    tidx := 0#2
    ridx := 0#4
    acc := Config.crcInit
    status := Config.stNone
    phase := Config.phaseTx }

/-- What an admitted T.TXACK does (R107). "TIDX was 0 or 1; no wrap is possible": at 3 the model
stops (log 4). -/
def takeByte (s : State) : Outcome :=
  if s.tidx = 2#2 then .next { s with tidx := 3#2, phase := Config.phaseRx }
  else if s.tidx = 3#2 then .fault .tidxRange
  else .next { s with tidx := s.tidx + 1#2 }

/-- The store of T.RXBYTE (R113): the byte at `RBUF[RIDX]`, absorbed unless it is a CRC byte. -/
def storeByte (b : Byte) (s : State) : State :=
  { s with
    rbuf := Memory.write s.rbuf s.ridx.toNat b
    acc := if s.ridx.toNat < crcCheckLen s.op then crcByte s.acc b else s.acc
    ridx := s.ridx + 1#4 }

/-- `complete()` (R115), on `RBUF` as the store left it (log 10). -/
def complete (s : State) : State :=
  if responseValid s.op (received s) then writeResults (finish Config.stOk s)
  else finish Config.stProtocolError s

/-- What an admitted T.RXBYTE does (R113). `RBUF` has indices 0 to 10 (log 3). -/
def receiveByte (b : Byte) (s : State) : Outcome :=
  if s.ridx.toNat < Config.rbufLen then
    .next (if s.ridx.toNat + 1 = respLen s.op then complete (storeByte b s) else storeByte b s)
  else .fault .rbufIndex

/-- One outcome after another: a fault or a refusal ends the sequence. -/
def andThen (o : Outcome) (f : State → Outcome) : Outcome :=
  match o with
  | .next s => f s
  | .fault r => .fault r
  | .refused r => .refused r

end Sys2Proof.Machine
end

