-- ==== Sys2Proof/Machine/CrcEvents.lean ====
section
/-! DEFINITION. CRC.INIT and CRC.BYTE (40_crc_engine.md R93, R94). -/

namespace Sys2Proof.Machine

/-- CRC.INIT (R93). -/
def execCrcInit (s : State) : Outcome :=
  admitHost (fun s => .next { s with acc := Config.crcInit }) s

/-- CRC.BYTE `b` (R94): continues from whatever `ACC` holds. -/
def execCrcByte (b : Byte) (s : State) : Outcome :=
  admitHost (fun s => .next { s with acc := crcByte s.acc b }) s

end Sys2Proof.Machine
end

