-- ==== Sys2Proof/Machine/ReadEvents.lean ====
section
/-! DEFINITION. The four RD events (41_frame_request.md R101 to R105). -/

namespace Sys2Proof.Machine

/-- RD.HUM (R102). -/
def execRdHum (s : State) : Outcome := admitHost (fun s => .next (startRead Config.opHum s)) s

/-- RD.TEMP (R103). -/
def execRdTemp (s : State) : Outcome := admitHost (fun s => .next (startRead Config.opTemp s)) s

/-- RD.BOTH (R104). -/
def execRdBoth (s : State) : Outcome := admitHost (fun s => .next (startRead Config.opBoth s)) s

/-- RD.INFO (R105). -/
def execRdInfo (s : State) : Outcome := admitHost (fun s => .next (startRead Config.opInfo s)) s

end Sys2Proof.Machine
end

