-- ==== Sys2Proof/Machine/TransportEvents.lean ====
section
/-! DEFINITION. The four transport events (41_frame_request.md R107, R108; 42_frame_response.md R113, R114). -/

namespace Sys2Proof.Machine

/-- T.TXACK (R107). -/
def execTTxack (s : State) : Outcome := admitTransport Config.phaseTx takeByte s

/-- T.TXERR (R108). -/
def execTTxerr (s : State) : Outcome :=
  admitTransport Config.phaseTx (fun s => .next (finish Config.stTransportError s)) s

/-- T.RXBYTE `b` (R113). -/
def execTRxbyte (b : Byte) (s : State) : Outcome := admitTransport Config.phaseRx (receiveByte b) s

/-- T.RXERR (R114). -/
def execTRxerr (s : State) : Outcome :=
  admitTransport Config.phaseRx (fun s => .next (finish Config.stTransportError s)) s

end Sys2Proof.Machine
end

