-- ==== Sys2Proof/Machine/Frames.lean ====
section
/-! DEFINITION. The frame rows of the table, each the run of the events that carry the frame: a request frame going out (41_frame_request.md R102 to R105, R109) and a response frame coming in (30_encoding.md R83, R84; 42_frame_response.md R113, R117). -/

namespace Sys2Proof.Machine

/-- The transport takes the three bytes on offer: `T.WRITE_OK` (R83, R109). -/
def takeRequest (s : State) : Outcome := andThen (andThen (execTTxack s) execTTxack) execTTxack

/-- The request frame of `op` goes out (log 6). Where it already stands on offer whole, the transport
takes it (R109). In IDLE the RD event of `op` starts it and the transport takes it (R102 to R105,
R109). In any other case the block is busy with a transaction and the request is dropped (R101, R158). -/
def emitRequest (op : BitVec 2) (s : State) : Outcome :=
  if s.phase = Config.phaseTx ∧ s.tidx = 0#2 ∧ s.op = op then takeRequest s
  else admitHost (fun s => takeRequest (startRead op s)) s

/-- `T.READ` (R83): the transport delivers the bytes in wire order, each by a T.RXBYTE. -/
def readBytes : List Byte → State → Outcome
  | [], s => .next s
  | b :: rest, s => andThen (execTRxbyte b s) (readBytes rest)

/-- REQ.HUM, `03 00 02` (R102, R109). -/
def execReqHum (s : State) : Outcome := emitRequest Config.opHum s

/-- REQ.TEMP, `03 02 02` (R103, R109). -/
def execReqTemp (s : State) : Outcome := emitRequest Config.opTemp s

/-- REQ.BOTH, `03 00 04` (R104, R109). -/
def execReqBoth (s : State) : Outcome := emitRequest Config.opBoth s

/-- REQ.INFO, `03 08 07` (R105, R109). -/
def execReqInfo (s : State) : Outcome := emitRequest Config.opInfo s

/-- RESP.HUM (R74): its six bytes are delivered (log 7). -/
def execRespHum (h crc : Word) (s : State) : Outcome :=
  readBytes (responseFrame (coveredField h) crc) s

/-- RESP.TEMP (R74): its six bytes are delivered (log 7). -/
def execRespTemp (t crc : Word) (s : State) : Outcome :=
  readBytes (responseFrame (coveredField t) crc) s

/-- RESP.BOTH (R74): its eight bytes are delivered (log 7). -/
def execRespBoth (h t crc : Word) (s : State) : Outcome :=
  readBytes (responseFrame (coveredBoth h t) crc) s

/-- RESP.INFO (R74): its eleven bytes are delivered (log 7). -/
def execRespInfo (d : InfoWord) (crc : Word) (s : State) : Outcome :=
  readBytes (responseFrame (coveredInfo d) crc) s

end Sys2Proof.Machine
end

