-- ==== Sys2Proof/Syntax.lean ====
section
/-! DEFINITION. The instruction type: one constructor per row of spec/opcode_table.json. -/

namespace Sys2Proof

/-- The rows of the opcode map: ten events (EV12, R66), four request frames (REQ24, R73) and four
response patterns (RESP, R74). In a response row `crc` is the 16-bit value of the frame's CRC field,
`crc_lo` its low and `crc_hi` its high byte (R71). -/
inductive Instr where
  /-- CRC.INIT, word 0x100 (R93). -/
  | crcInit
  /-- CRC.BYTE `b`, word 0x200 + `b` (R94). -/
  | crcByte (b : Byte)
  /-- RD.HUM, word 0x300 (R102). -/
  | rdHum
  /-- RD.TEMP, word 0x301 (R103). -/
  | rdTemp
  /-- RD.BOTH, word 0x302 (R104). -/
  | rdBoth
  /-- RD.INFO, word 0x303 (R105). -/
  | rdInfo
  /-- T.TXACK, word 0x800 (R107). -/
  | tTxack
  /-- T.TXERR, word 0x900 (R108). -/
  | tTxerr
  /-- T.RXBYTE `b`, word 0xA00 + `b` (R113). -/
  | tRxbyte (b : Byte)
  /-- T.RXERR, word 0xB00 (R114). -/
  | tRxerr
  /-- REQ.HUM, frame 03 00 02 (R73). -/
  | reqHum
  /-- REQ.TEMP, frame 03 02 02 (R73). -/
  | reqTemp
  /-- REQ.BOTH, frame 03 00 04 (R73). -/
  | reqBoth
  /-- REQ.INFO, frame 03 08 07 (R73). -/
  | reqInfo
  /-- RESP.HUM, 6 bytes: 03 02, humidity, CRC (R74). -/
  | respHum (h crc : Word)
  /-- RESP.TEMP, 6 bytes: 03 02, temperature, CRC (R74). -/
  | respTemp (t crc : Word)
  /-- RESP.BOTH, 8 bytes: 03 04, humidity, temperature, CRC (R74). -/
  | respBoth (h t crc : Word)
  /-- RESP.INFO, 11 bytes: 03 07, device info, CRC (R74). -/
  | respInfo (d : InfoWord) (crc : Word)
  deriving DecidableEq, Repr

end Sys2Proof
end

