-- ==== Sys2Proof/Machine/Dispatch.lean ====
section
/-! DEFINITION. exec: one arm per row of spec/opcode_table.json. -/

namespace Sys2Proof.Machine

def exec (i : Instr) (s : State) : Host.Outcome State Fault Refusal :=
  match i with
  | .crcInit => Sys2Proof.Machine.execCrcInit s
  | .crcByte b => Sys2Proof.Machine.execCrcByte b s
  | .rdHum => Sys2Proof.Machine.execRdHum s
  | .rdTemp => Sys2Proof.Machine.execRdTemp s
  | .rdBoth => Sys2Proof.Machine.execRdBoth s
  | .rdInfo => Sys2Proof.Machine.execRdInfo s
  | .tTxack => Sys2Proof.Machine.execTTxack s
  | .tTxerr => Sys2Proof.Machine.execTTxerr s
  | .tRxbyte b => Sys2Proof.Machine.execTRxbyte b s
  | .tRxerr => Sys2Proof.Machine.execTRxerr s
  | .reqHum => Sys2Proof.Machine.execReqHum s
  | .reqTemp => Sys2Proof.Machine.execReqTemp s
  | .reqBoth => Sys2Proof.Machine.execReqBoth s
  | .reqInfo => Sys2Proof.Machine.execReqInfo s
  | .respHum h crc => Sys2Proof.Machine.execRespHum h crc s
  | .respTemp t crc => Sys2Proof.Machine.execRespTemp t crc s
  | .respBoth h t crc => Sys2Proof.Machine.execRespBoth h t crc s
  | .respInfo d crc => Sys2Proof.Machine.execRespInfo d crc s

end Sys2Proof.Machine
end

