-- ==== Sys2Proof/WellFormed.lean ====
section
/-! DEFINITION. Which instructions are well formed, and under which `OP` a response row is read as itself. -/

namespace Sys2Proof

/-- A response row's `c` bits must equal the computed CRC (30_encoding.md R71, R74; the table's notes).
Every other row is well formed by its types. The step does not ask for this: a frame that fails it
has the effect the spec gives it, ST_PROTOCOL_ERROR (log 14). -/
def Instr.wellFormed : Instr → Bool
  | .crcInit | .crcByte _ | .rdHum | .rdTemp | .rdBoth | .rdInfo => true
  | .tTxack | .tTxerr | .tRxbyte _ | .tRxerr => true
  | .reqHum | .reqTemp | .reqBoth | .reqInfo => true
  | .respHum h crc => crc == Machine.crc16 (Machine.coveredField h)
  | .respTemp t crc => crc == Machine.crc16 (Machine.coveredField t)
  | .respBoth h t crc => crc == Machine.crc16 (Machine.coveredBoth h t)
  | .respInfo d crc => crc == Machine.crc16 (Machine.coveredInfo d)

/-- "The HUM and TEMP patterns are the same bits ... the block tells them apart only by the `OP` it
latched" (R74): with TEMP latched the six bytes are RESP.TEMP, otherwise RESP.HUM. No other row
depends on `OP`. -/
def Instr.readUnder (op : BitVec 2) : Instr → Bool
  | .respHum _ _ => op != Config.opTemp
  | .respTemp _ _ => op == Config.opTemp
  | .crcInit | .crcByte _ | .rdHum | .rdTemp | .rdBoth | .rdInfo => true
  | .tTxack | .tTxerr | .tRxbyte _ | .tRxerr => true
  | .reqHum | .reqTemp | .reqBoth | .reqInfo => true
  | .respBoth _ _ _ | .respInfo _ _ => true

end Sys2Proof
end

