-- ==== Sys2Proof/Decode.lean ====
section
/-! DEFINITION. The decoder (30_encoding.md R66 to R69, R73, R74, R78, R81), total and rejecting by name, and the encoder, written from the same tables. -/

namespace Sys2Proof

/-- Why a pattern is no row of the opcode map. -/
inductive Reject where
  /-- An event word with an unassigned `opc` (R78, V1). -/
  | unassignedOpcode
  /-- An event word with a non-zero must-be-zero operand byte (R68, V2). -/
  | nonzeroOperand
  /-- An RD word whose operand byte is above 3 (R67, V3). -/
  | selectorOutOfRange
  /-- A 24-bit word that is none of the four request frames (R73, V4). -/
  | notARequestFrame
  /-- Bytes that fit none of the response patterns of R74. -/
  | notAResponsePattern
  deriving DecidableEq, Repr

/-- `opc = EV[11:8]` (R65). -/
def opcOf (w : EventWord) : BitVec 4 := w.extractLsb' 8 4

/-- `imm8 = EV[7:0]`, used as it stands (R65, R69). -/
def imm8Of (w : EventWord) : Byte := w.extractLsb' 0 8

/-- `port`, the top bit of `opc`: true for a transport event (R65). -/
def portOf (w : EventWord) : Bool := w.getLsbD 11

/-- `i` where the operand byte is zero, as R68 requires of its row. -/
def noOperand (i : Instr) (imm8 : Byte) : Except Reject Instr :=
  if imm8 = 0 then .ok i else .error .nonzeroOperand

/-- The operation selector of an RD word (R67). -/
def decodeRead (imm8 : Byte) : Except Reject Instr :=
  if imm8 = 0 then .ok .rdHum
  else if imm8 = 1 then .ok .rdTemp
  else if imm8 = 2 then .ok .rdBoth
  else if imm8 = 3 then .ok .rdInfo
  else .error .selectorOutOfRange

/-- Decoding of an event word: total, and a function of the word alone (R81). -/
def decodeEvent (w : EventWord) : Except Reject Instr :=
  if opcOf w = 0x1 then noOperand .crcInit (imm8Of w)
  else if opcOf w = 0x2 then .ok (.crcByte (imm8Of w))
  else if opcOf w = 0x3 then decodeRead (imm8Of w)
  else if opcOf w = 0x8 then noOperand .tTxack (imm8Of w)
  else if opcOf w = 0x9 then noOperand .tTxerr (imm8Of w)
  else if opcOf w = 0xA then .ok (.tRxbyte (imm8Of w))
  else if opcOf w = 0xB then noOperand .tRxerr (imm8Of w)
  else .error .unassignedOpcode

/-- The four request frames the block can emit, and no others (R73). -/
def decodeRequest (w : RequestWord) : Except Reject Instr :=
  if w = 0x030002 then .ok .reqHum
  else if w = 0x030202 then .ok .reqTemp
  else if w = 0x030004 then .ok .reqBoth
  else if w = 0x030807 then .ok .reqInfo
  else .error .notARequestFrame

/-- The response patterns (R74), under the latched `OP`, which alone tells HUM from TEMP. Whether
the CRC bytes are right is not the pattern's concern (R74, R117). -/
def decodeResponse (op : BitVec 2) : List Byte → Except Reject Instr
  | [fc, n, b2, b3, lo, hi] =>
    if fc = Config.fcRead ∧ n = 0x02 then
      if op = Config.opTemp then .ok (.respTemp (Machine.joinBytes b2 b3) (Machine.joinBytes hi lo))
      else .ok (.respHum (Machine.joinBytes b2 b3) (Machine.joinBytes hi lo))
    else .error .notAResponsePattern
  | [fc, n, b2, b3, b4, b5, lo, hi] =>
    if fc = Config.fcRead ∧ n = 0x04 then
      .ok (.respBoth (Machine.joinBytes b2 b3) (Machine.joinBytes b4 b5) (Machine.joinBytes hi lo))
    else .error .notAResponsePattern
  | [fc, n, b2, b3, b4, b5, b6, b7, b8, lo, hi] =>
    if fc = Config.fcRead ∧ n = 0x07 then
      .ok (.respInfo (Machine.joinInfo b2 b3 b4 b5 b6 b7 b8) (Machine.joinBytes hi lo))
    else .error .notAResponsePattern
  | _ => .error .notAResponsePattern

/-- Decoding in any of the three encoding spaces. -/
def decode (op : BitVec 2) : Code → Except Reject Instr
  | .event w => decodeEvent w
  | .request w => decodeRequest w
  | .response bytes => decodeResponse op bytes

/-! ## The encoder -/

/-- `opc ‖ imm8` (R65). -/
def eventWord (opc : BitVec 4) (imm8 : Byte) : EventWord := opc ++ imm8

/-- `fc ‖ start ‖ count` (R70). -/
def requestWord (fc start count : Byte) : RequestWord := fc ++ start ++ count

/-- The pattern of each row: R66, R73, R74. -/
def encode : Instr → Code
  | .crcInit => .event (eventWord 0x1 0x00)
  | .crcByte b => .event (eventWord 0x2 b)
  | .rdHum => .event (eventWord 0x3 0x00)
  | .rdTemp => .event (eventWord 0x3 0x01)
  | .rdBoth => .event (eventWord 0x3 0x02)
  | .rdInfo => .event (eventWord 0x3 0x03)
  | .tTxack => .event (eventWord 0x8 0x00)
  | .tTxerr => .event (eventWord 0x9 0x00)
  | .tRxbyte b => .event (eventWord 0xA b)
  | .tRxerr => .event (eventWord 0xB 0x00)
  | .reqHum => .request (requestWord 0x03 0x00 0x02)
  | .reqTemp => .request (requestWord 0x03 0x02 0x02)
  | .reqBoth => .request (requestWord 0x03 0x00 0x04)
  | .reqInfo => .request (requestWord 0x03 0x08 0x07)
  | .respHum h crc => .response (Machine.responseFrame (Machine.coveredField h) crc)
  | .respTemp t crc => .response (Machine.responseFrame (Machine.coveredField t) crc)
  | .respBoth h t crc => .response (Machine.responseFrame (Machine.coveredBoth h t) crc)
  | .respInfo d crc => .response (Machine.responseFrame (Machine.coveredInfo d) crc)

/-! ## The table's numbering of a row's bits -/

/-- The `n` bytes of `w`, the most significant first: the table writes a frame with byte 0 most
significant (R70, R74). -/
def bytesOfNumber (n w : Nat) : List Byte :=
  (List.range n).map fun i => BitVec.ofNat 8 (w >>> (8 * (n - 1 - i)))

/-- The pattern that the table numbers `w` in a row of `nbits` bits, none where `w` does not fit a
row of that size. A row of up to 16 bits is an event word, whose 12 bits the table gives in whole
bytes (log 8). -/
def codeOfTableWord (nbits w : Nat) : Option Code :=
  if nbits ≤ 16 then (if w < 4096 then some (.event (BitVec.ofNat 12 w)) else none)
  else if nbits ≤ 24 then (if w < 2 ^ 24 then some (.request (BitVec.ofNat 24 w)) else none)
  else if nbits = 48 ∨ nbits = 64 ∨ nbits = 88 then
    (if w < 2 ^ nbits then some (.response (bytesOfNumber (nbits / 8) w)) else none)
  else none

/-- What the decoder reads from a row of the table, with `OP` as reset leaves it (log 8). -/
def decodeTableWord (nbits w : Nat) : Option Instr :=
  match codeOfTableWord nbits w with
  | none => none
  | some c =>
    match decode Config.opHum c with
    | .ok i => some i
    | .error _ => none

end Sys2Proof
end

