-- ==== Sys2Proof/Machine/Fetch.lean ====
section
/-! DEFINITION. What a step takes from the environment, and what it does with a pattern that is no row of the table (60_exceptions.md R138). -/

namespace Sys2Proof.Machine

/-- What a step finds presented. -/
inductive Fetched where
  /-- Nothing to run: RESET, or no event; the state after it. -/
  | settled (s : State)
  /-- An instruction, and the state it runs in. -/
  | run (i : Instr) (s : State)
  /-- A pattern the decoder rejects, and the state. -/
  | rejected (c : Code) (s : State)
  deriving DecidableEq, Repr

/-- The order of R138: `rst` first, the pattern then ignored; then no event, no change; then decode.
With nothing presented the block waits (R53, R153; log 1). -/
def fetch (s : State) : Fetched :=
  match s.inputs with
  | [] => .settled s
  | p :: rest =>
    let t := { s with inputs := rest }
    if p.rst then .settled (resetPin t)
    else
      match p.code with
      | none => .settled t
      | some c =>
        match decode s.op c with
        | .ok i => .run i t
        | .error _ => .rejected c t

/-- A pattern that is no row. An illegal event word raises F_ILLEGAL in every phase (R78, R135, R138
item 3). Bytes that fit no response pattern are delivered as they are: every byte value has a defined
next state (R63; log 8). A 24-bit word that is no request frame is never on the wire (R79; log 9). -/
def executeRejected : Code → State → Outcome
  | .event _, s => .next (raiseFault Config.fIllegal s)
  | .request _, _ => .refused .requestNeverEmitted
  | .response bytes, s => readBytes bytes s

/-- `s` with a pattern presented to its next step, before anything else. -/
def present (c : Code) (s : State) : State := { s with inputs := ⟨false, some c⟩ :: s.inputs }

/-- `s` with the pattern that the table numbers `w` presented next; `s` itself where `w` fits no row. -/
def presentTableWord (nbits w : Nat) (s : State) : State :=
  match codeOfTableWord nbits w with
  | some c => present c s
  | none => s

end Sys2Proof.Machine
end

