-- ==== Sys2Proof/Machine/Step.lean ====
section
/-! DEFINITION. One step of the block: at most one event, taken whole (20_memory.md R55, R59; 60_exceptions.md R138). -/

namespace Sys2Proof.Machine

/-- One step. -/
def step (s : State) : Host.Outcome State Fault Refusal :=
  match fetch s with
  | .settled t => .next t
  | .run i t => exec i t
  | .rejected c t => executeRejected c t

/-- `s` with the row's word presented to the next step (log 1). -/
def State.withFetchWord (s : State) (nbits w : Nat) : State := presentTableWord nbits w s

end Sys2Proof.Machine
end

