-- ==== Sys2Proof/Machine/Outputs.lean ====
section
/-! DEFINITION. The output ports, functions of the state alone (10_state.md R33 to R35). -/

namespace Sys2Proof.Machine

/-- `tx_byte` (R34), the request byte the transport is to take next (log 13). -/
def txByte (s : State) : Byte :=
  if s.phase ≠ Config.phaseTx then 0x00
  else if s.tidx = 0#2 then reqFc s.op
  else if s.tidx = 1#2 then reqStart s.op
  else reqCount s.op

/-- `rx_len` (R33). -/
def rxLen (s : State) : BitVec 4 := if s.phase = Config.phaseRx then rlen s.op else 0

/-- The ports of R33, in its order. -/
structure Outputs where
  evReady : Bool
  busy : Bool
  op : BitVec 2
  status : BitVec 2
  fault : BitVec 2
  crcVal : Word
  crcHi : Byte
  crcLo : Byte
  txValid : Bool
  txByte : Byte
  rxReady : Bool
  rxLen : BitVec 4
  hum : Word
  humV : Bool
  temp : Word
  tempV : Bool
  info : InfoWord
  infoV : Bool
  deriving DecidableEq, Repr

/-- The outputs in a state (R33). -/
def outputs (s : State) : Outputs where
  evReady := true
  busy := Machine.busy s
  op := s.op
  status := s.status
  fault := s.fault
  crcVal := s.acc
  crcHi := hiByte s.acc
  crcLo := loByte s.acc
  txValid := Machine.txValid s
  txByte := Machine.txByte s
  rxReady := Machine.rxReady s
  rxLen := Machine.rxLen s
  hum := s.hum
  humV := s.humV
  temp := s.temp
  tempV := s.tempV
  info := s.info
  infoV := s.infoV

end Sys2Proof.Machine
end

