-- ==== Sys2Proof/Safety.lean ====
section
/-! DEFINITION. The terms claims use: the invariants of every reachable state (10_state.md R36, 42_frame_response.md R124), reachability, the kinds of events (R135), and the scripts of a transaction (R83, R128). -/

namespace Sys2Proof.Machine

/-! ## Invariants -/

/-- Every result register zero and invalid. -/
abbrev ResultsClear (s : State) : Prop :=
  s.hum = 0#16 ∧ s.humV = false ∧ s.temp = 0#16 ∧ s.tempV = false ∧ s.info = 0#56 ∧ s.infoV = false

/-- The invariants of R36, its items 1 to 8, and the canonical form of the memory. Item 9 speaks of a
step, not of a state. -/
structure State.Inv (s : State) : Prop where
  memory : Memory.wf s.rbuf = true
  /-- Item 1. -/
  phase_legal : s.phase ≠ 3#2
  /-- Item 2. -/
  in_tx : s.phase = Config.phaseTx → s.tidx ≠ 3#2 ∧ s.ridx = 0#4 ∧ s.acc = Config.crcInit
  /-- Item 3. -/
  in_rx : s.phase = Config.phaseRx → s.tidx = 3#2 ∧ s.ridx.toNat < respLen s.op ∧
    s.acc = crc16 (memBytes s.rbuf 0 (min s.ridx.toNat (crcCheckLen s.op)))
  /-- Item 4. -/
  busy_clear : s.phase ≠ Config.phaseIdle → s.status = Config.stNone ∧ ResultsClear s
  /-- Item 5. -/
  not_ok_clear : s.status ≠ Config.stOk → ResultsClear s
  /-- Item 6. -/
  ok_result : s.status = Config.stOk → s.phase = Config.phaseIdle ∧ s.ridx.toNat = respLen s.op ∧
    (s.humV = true ↔ s.op = Config.opHum ∨ s.op = Config.opBoth) ∧
    (s.tempV = true ↔ s.op = Config.opTemp ∨ s.op = Config.opBoth) ∧
    (s.infoV = true ↔ s.op = Config.opInfo) ∧
    (s.humV = false → s.hum = 0#16) ∧ (s.tempV = false → s.temp = 0#16) ∧ (s.infoV = false → s.info = 0#56)
  /-- Item 7. -/
  protocol_error : s.status = Config.stProtocolError →
    s.phase = Config.phaseIdle ∧ s.ridx.toNat = respLen s.op
  /-- Item 8 (`TIDX` has two bits). -/
  ridx_le : s.ridx.toNat ≤ 11

/-- No partial result (R124): a valid result register holds its field of the response in `RBUF`, which
passed validation for `OP`. -/
structure State.ResultsBacked (s : State) : Prop where
  hum : s.humV = true → responseValid s.op (received s) = true ∧
    (extract s.op (received s)).hum = some s.hum
  temp : s.tempV = true → responseValid s.op (received s) = true ∧
    (extract s.op (received s)).temp = some s.temp
  info : s.infoV = true → responseValid s.op (received s) = true ∧
    (extract s.op (received s)).info = some s.info

/-- The states of a run: from a reset state, with any `RBUF` (R154) and any inputs, by steps. -/
inductive Reachable : State → Prop where
  | reset (m : Memory) (ins : List Presented) (h : Memory.wf m = true) :
      Reachable { State.reset with rbuf := m, inputs := ins }
  | step {s t : State} (h : Reachable s) (hs : step s = .next t) : Reachable t

/-! ## Kinds of instructions -/

/-- The host events (R135): CRC.INIT, CRC.BYTE and the four RD. -/
def isHostEvent : Instr → Bool
  | .crcInit | .crcByte _ | .rdHum | .rdTemp | .rdBoth | .rdInfo => true
  | .tTxack | .tTxerr | .tRxbyte _ | .tRxerr => false
  | .reqHum | .reqTemp | .reqBoth | .reqInfo => false
  | .respHum _ _ | .respTemp _ _ | .respBoth _ _ _ | .respInfo _ _ => false

/-- The transport events admitted in phase TX (R135). -/
def isTxEvent : Instr → Bool
  | .tTxack | .tTxerr => true
  | .crcInit | .crcByte _ | .rdHum | .rdTemp | .rdBoth | .rdInfo => false
  | .tRxbyte _ | .tRxerr => false
  | .reqHum | .reqTemp | .reqBoth | .reqInfo => false
  | .respHum _ _ | .respTemp _ _ | .respBoth _ _ _ | .respInfo _ _ => false

/-- The transport events admitted in phase RX (R135). -/
def isRxEvent : Instr → Bool
  | .tRxbyte _ | .tRxerr => true
  | .crcInit | .crcByte _ | .rdHum | .rdTemp | .rdBoth | .rdInfo => false
  | .tTxack | .tTxerr => false
  | .reqHum | .reqTemp | .reqBoth | .reqInfo => false
  | .respHum _ _ | .respTemp _ _ | .respBoth _ _ _ | .respInfo _ _ => false

/-- The bytes a row delivers into `RBUF`, in order: none but for T.RXBYTE and the response rows. -/
def deliveredBytes : Instr → List Byte
  | .tRxbyte b => [b]
  | .respHum h crc => responseFrame (coveredField h) crc
  | .respTemp t crc => responseFrame (coveredField t) crc
  | .respBoth h t crc => responseFrame (coveredBoth h t) crc
  | .respInfo d crc => responseFrame (coveredInfo d) crc
  | .crcInit | .crcByte _ | .rdHum | .rdTemp | .rdBoth | .rdInfo => []
  | .tTxack | .tTxerr | .tRxerr => []
  | .reqHum | .reqTemp | .reqBoth | .reqInfo => []

/-- The operation a read row starts, for the RD events and the request frames (R67, R72). -/
def startedOp : Instr → Option (BitVec 2)
  | .rdHum | .reqHum => some Config.opHum
  | .rdTemp | .reqTemp => some Config.opTemp
  | .rdBoth | .reqBoth => some Config.opBoth
  | .rdInfo | .reqInfo => some Config.opInfo
  | .crcInit | .crcByte _ => none
  | .tTxack | .tTxerr | .tRxbyte _ | .tRxerr => none
  | .respHum _ _ | .respTemp _ _ | .respBoth _ _ _ | .respInfo _ _ => none

/-- The RD event of an operation (R67). -/
def readEvent (op : BitVec 2) : Instr :=
  if op = Config.opHum then .rdHum
  else if op = Config.opTemp then .rdTemp
  else if op = Config.opBoth then .rdBoth
  else .rdInfo

/-! ## Scripts (R82, R83) -/

/-- A row's pattern, presented alone. -/
def shown (i : Instr) : Presented := ⟨false, some (encode i)⟩

/-- `CRC16 b0 ... bn-1` (R83). -/
def crcScript (bytes : List Byte) : List Presented :=
  shown .crcInit :: bytes.map fun b => shown (.crcByte b)

/-- RD for `op`, then `k` times T.TXACK. -/
def requestScript (op : BitVec 2) (k : Nat) : List Presented :=
  shown (readEvent op) :: List.replicate k (shown .tTxack)

/-- `T.READ` (R83). -/
def readScript (bytes : List Byte) : List Presented := bytes.map fun b => shown (.tRxbyte b)

/-- RD for `op`, `T.WRITE_OK`, `T.READ r` (R128). -/
def transactionScript (op : BitVec 2) (r : List Byte) : List Presented :=
  requestScript op 3 ++ readScript r

/-- `k` steps, stopping at the first fault or refusal: `Host.Core.run` of `Sys2Proof.core`
(`run_core` in Laws/Step.lean), over `State` itself. -/
def runSteps : Nat → State → Outcome
  | 0, s => .next s
  | k + 1, s => andThen (step s) (runSteps k)

/-- The outcome of running a script to its end from `s`, whatever `s` had presented before. -/
def runScript (script : List Presented) (s : State) : Outcome :=
  runSteps script.length { s with inputs := script }

end Sys2Proof.Machine
end

