-- ==== Sys2Proof/Certificates/Slice0/Obligations.lean ====
section
/-! DEFINITION. The statements for the provers, in the order of the spec's files: unit C, encodings, the step, the events, the frames, the transaction, the invariants, the frames of registers and memory. -/

open Sys2Proof Sys2Proof.Machine

/-! ## Unit C -/

/-- R87: `crc_shift`, its pseudocode, its result bit by bit, and the rule's examples. -/
def Obligations.CrcShiftBitByBit : Prop :=
  (∀ a : Word,
    (a.getLsbD 0 = true →
      crcShift a = (a >>> 1) ^^^ 0xA001 ∧ (crcShift a).getLsbD 15 = true ∧
      (crcShift a).getLsbD 14 = a.getLsbD 15 ∧ (crcShift a).getLsbD 13 = !a.getLsbD 14 ∧
      (∀ k, 1 ≤ k → k ≤ 12 → (crcShift a).getLsbD k = a.getLsbD (k + 1)) ∧
      (crcShift a).getLsbD 0 = !a.getLsbD 1) ∧
    (a.getLsbD 0 = false →
      crcShift a = a >>> 1 ∧ (crcShift a).getLsbD 15 = false ∧
      ∀ k, k ≤ 14 → (crcShift a).getLsbD k = a.getLsbD (k + 1))) ∧
  crcShift 0xFFFF = 0xDFFE ∧ crcShift 0x0001 = 0xA001 ∧ crcShift 0x0000 = 0x0000 ∧
  crcShift 0x8000 = 0x4000 ∧ crcShift 0xFFFE = 0x7FFF ∧ crcShift 0xA001 = 0xF001 ∧
  crcShift 0x0002 = 0x0001

/-- R88: `crc_byte` is one XOR into the low byte and exactly eight shifts; the worked example. -/
def Obligations.CrcByteIsOneXorAndEightShifts : Prop :=
  (∀ (a : Word) (b : Byte),
    hiByte (a ^^^ b.setWidth 16) = hiByte a ∧ loByte (a ^^^ b.setWidth 16) = loByte a ^^^ b ∧
    crcByte a b = crcShift (crcShift (crcShift (crcShift (crcShift (crcShift (crcShift (crcShift
      (a ^^^ b.setWidth 16))))))))) ∧
  (List.range 9).map (fun k => crcShifts k (0xFFFF ^^^ 0x03)) =
    [0xFFFC, 0x7FFE, 0x3FFF, 0xBFFE, 0x5FFF, 0x8FFE, 0x47FF, 0x83FE, 0x41FF] ∧
  crcByte 0xFFFF 0x03 = 0x41FF

/-- R89: `crc_run`, `crc16`, the empty sequence, and the source's regression vector with its running
accumulator. -/
def Obligations.Crc16RegressionVector : Prop :=
  (∀ a : Word, crcRun a [] = a) ∧
  (∀ (a : Word) (b : Byte) (rest : List Byte), crcRun a (b :: rest) = crcRun (crcByte a b) rest) ∧
  (∀ s : List Byte, crc16 s = crcRun 0xFFFF s) ∧
  crc16 [] = 0xFFFF ∧ crc16 [0x03] = 0x41FF ∧ crc16 [0x03, 0x04] = 0x8300 ∧
  crc16 [0x03, 0x04, 0x03] = 0x01C3 ∧ crc16 [0x03, 0x04, 0x03, 0x39] = 0x4381 ∧
  crc16 [0x03, 0x04, 0x03, 0x39, 0x01] = 0xA042 ∧
  crc16 [0x03, 0x04, 0x03, 0x39, 0x01, 0x15] = 0xFEE1

/-- R90: `crc_run` composes. -/
def Obligations.CrcRunComposes : Prop :=
  ∀ (a : Word) (s t : List Byte), crcRun a (s ++ t) = crcRun (crcRun a s) t

/-- R91, R92, R35: the byte pair of a CRC, high byte first on the ports, low byte first on the wire. -/
def Obligations.CrcBytePairs : Prop :=
  (∀ c : Word, toBytes c = [c.extractLsb' 8 8, c.extractLsb' 0 8] ∧
    crcWire c = [c.extractLsb' 0 8, c.extractLsb' 8 8] ∧ crcWire c = (toBytes c).reverse) ∧
  (∀ s : State, [(outputs s).crcHi, (outputs s).crcLo] = toBytes s.acc) ∧
  toBytes 0xFEE1 = [0xFE, 0xE1] ∧ crcWire 0xFEE1 = [0xE1, 0xFE]

/-- R97: a message followed by its CRC in wire order has CRC zero; in the other order the regression
vector gives 0xF849. -/
def Obligations.ResidueLaw : Prop :=
  (∀ m : List Byte, crc16 (m ++ crcWire (crc16 m)) = 0x0000) ∧
  crc16 ([0x03, 0x04, 0x03, 0x39, 0x01, 0x15] ++
    toBytes (crc16 [0x03, 0x04, 0x03, 0x39, 0x01, 0x15])) = 0xF849

/-- R96: the shift and the byte step are bijections; bit 15 of a shift is the bit that was dropped. -/
def Obligations.CrcStepsAreBijections : Prop :=
  Function.Bijective crcShift ∧ (∀ b : Byte, Function.Bijective fun a => crcByte a b) ∧
  (∀ a : Word, (crcShift a).getLsbD 15 = a.getLsbD 0) ∧
  (∀ (a : Word) (b : Byte), crcByte a b = crcByte (a ^^^ b.setWidth 16) 0x00)

/-- R95: the host's procedure for one CRC, run through the step (its events stand in `inputs`, log 1),
and what it gives without CRC.INIT. -/
def Obligations.HostCrcProcedure : Prop :=
  ∀ (s : State) (bytes : List Byte), s.phase = 0#2 →
    (∃ t, runScript (crcScript bytes) s = .next t ∧
      t = { s with acc := crc16 bytes, inputs := [] } ∧
      (outputs t).crcVal = crc16 bytes ∧
      [(outputs t).crcHi, (outputs t).crcLo] = toBytes (crc16 bytes)) ∧
    runScript (bytes.map fun b => shown (.crcByte b)) s =
      .next { s with acc := crcRun s.acc bytes, inputs := [] }

/-! ## Encodings -/

/-- Words written out from the opcode map decode to the events they stand for, and the four frames of
each kind to theirs (R66, R73, R74). -/
def Obligations.PatternsDecodeToTheirRows : Prop :=
  decodeEvent 0b000100000000 = .ok .crcInit ∧
  decodeEvent 0b001000111001 = .ok (.crcByte 0x39) ∧ decodeEvent 0b001011111111 = .ok (.crcByte 0xFF) ∧
  decodeEvent 0b001100000000 = .ok .rdHum ∧ decodeEvent 0b001100000001 = .ok .rdTemp ∧
  decodeEvent 0b001100000010 = .ok .rdBoth ∧ decodeEvent 0b001100000011 = .ok .rdInfo ∧
  decodeEvent 0b100000000000 = .ok .tTxack ∧ decodeEvent 0b100100000000 = .ok .tTxerr ∧
  decodeEvent 0b101011000010 = .ok (.tRxbyte 0xC2) ∧ decodeEvent 0b101100000000 = .ok .tRxerr ∧
  decodeRequest 0x030002 = .ok .reqHum ∧ decodeRequest 0x030202 = .ok .reqTemp ∧
  decodeRequest 0x030004 = .ok .reqBoth ∧ decodeRequest 0x030807 = .ok .reqInfo ∧
  decodeResponse 0 [0x03, 0x02, 0x01, 0xC2, 0x21, 0xA1] = .ok (.respHum 0x01C2 0xA121) ∧
  decodeResponse 1 [0x03, 0x02, 0x01, 0x15, 0x61, 0xFF] = .ok (.respTemp 0x0115 0xFF61) ∧
  decodeResponse 2 [0x03, 0x04, 0x03, 0x39, 0x01, 0x15, 0xE1, 0xFE] =
    .ok (.respBoth 0x0339 0x0115 0xFEE1) ∧
  decodeResponse 3 [0x03, 0x07, 0x11, 0x22, 0x33, 0x44, 0x55, 0x66, 0x77, 0x33, 0x07] =
    .ok (.respInfo 0x11223344556677 0x0733)

/-- Decoding an encoded instruction gives it back, for every row and every operand; HUM and TEMP
responses are the same bits and are told apart by the latched `OP` (R74). -/
def Obligations.DecodeEncodeAgree : Prop :=
  ∀ (op : BitVec 2) (i : Instr), i.readUnder op = true → decode op (encode i) = .ok i

/-- A pattern decodes to an instruction only if it is that instruction's pattern: the rows are disjoint
and no bit of a pattern is ignored (R66, R68, R74). -/
def Obligations.DecodedPatternIsTheRows : Prop :=
  ∀ (op : BitVec 2) (c : Code) (i : Instr),
    decode op c = .ok i → encode i = c ∧ i.readUnder op = true

/-- R78: which event words are illegal, how many, and what an illegal word does. -/
def Obligations.IllegalEventWords : Prop :=
  (∀ w : EventWord, (∃ r, decodeEvent w = .error r) ↔
    (opcOf w ∈ [0x0, 0x4, 0x5, 0x6, 0x7, 0xC, 0xD, 0xE, 0xF] ∨
      (opcOf w ∈ [0x1, 0x8, 0x9, 0xB] ∧ imm8Of w ≠ 0) ∨ (opcOf w = 0x3 ∧ 3 < (imm8Of w).toNat))) ∧
  ((List.range 4096).countP fun w => (decodeEvent (BitVec.ofNat 12 w)).isOk) = 520 ∧
  ((List.range 4096).countP fun w => !(decodeEvent (BitVec.ofNat 12 w)).isOk) = 3576 ∧
  (decodeEvent 0x000).isOk = false ∧ (decodeEvent 0xFFF).isOk = false ∧
  ∀ (s : State) (w : EventWord) (r : Reject) (rest : List Presented),
    s.inputs = ⟨false, some (.event w)⟩ :: rest → decodeEvent w = .error r →
    step s = .next { s with fault := if s.fault = 0#2 then 1#2 else s.fault, inputs := rest }

/-- R73, R100: the four request frames, as bytes and as 24-bit numbers. -/
def Obligations.RequestFrames : Prop :=
  requestFrame 0 = [0x03, 0x00, 0x02] ∧ requestFrame 1 = [0x03, 0x02, 0x02] ∧
  requestFrame 2 = [0x03, 0x00, 0x04] ∧ requestFrame 3 = [0x03, 0x08, 0x07] ∧
  encode .reqHum = .request 0x030002 ∧ encode .reqTemp = .request 0x030202 ∧
  encode .reqBoth = .request 0x030004 ∧ encode .reqInfo = .request 0x030807 ∧
  (∀ op : BitVec 2, requestFrame op = [reqFc op, reqStart op, reqCount op]) ∧
  (∀ w i, decodeRequest w = .ok i → w ∈ [0x030002, 0x030202, 0x030004, 0x030807])

/-- R76: `RLEN` and `crc_check_len` for every operation. -/
def Obligations.ResponseLengths : Prop :=
  (∀ op : BitVec 2, rlen op = ((reqCount op).extractLsb' 0 3).setWidth 4 + 4 ∧
    respLen op = (reqCount op).toNat + 4 ∧ respLen op ≤ 11 ∧ crcCheckLen op = respLen op - 2) ∧
  respLen 0 = 6 ∧ respLen 1 = 6 ∧ respLen 2 = 8 ∧ respLen 3 = 11 ∧
  crcCheckLen 0 = 4 ∧ crcCheckLen 1 = 4 ∧ crcCheckLen 2 = 6 ∧ crcCheckLen 3 = 9

/-- The registers a request names are the ones the source gives for it, and no request names 0x04 to
0x07 or an address above 0x0E (R57, R72). -/
def Obligations.RequestedRegisters : Prop :=
  requestedRegisters 0 = [0x00, 0x01] ∧ requestedRegisters 1 = [0x02, 0x03] ∧
  requestedRegisters 2 = [0x00, 0x01, 0x02, 0x03] ∧
  requestedRegisters 3 = [0x08, 0x09, 0x0A, 0x0B, 0x0C, 0x0D, 0x0E] ∧
  ∀ (op : BitVec 2), ∀ a ∈ requestedRegisters op, a ≤ 0x03 ∨ (0x08 ≤ a ∧ a ≤ 0x0E)

/-! ## The step, reset, admission -/

/-- A step runs the decoded instruction: when the next thing presented is a pattern that decodes to
`i`, and `rst` is not asserted, the step is `exec i` in the state with that input taken (log 1). -/
def Obligations.StepRunsDecodedInstruction : Prop :=
  ∀ (s : State) (c : Code) (i : Instr) (rest : List Presented),
    s.inputs = ⟨false, some c⟩ :: rest → decode s.op c = .ok i →
    step s = exec i { s with inputs := rest }

/-- R138 items 1 and 2: `rst` wins over whatever pattern is presented with it; with no event the block
does not change. With nothing presented at all the model's step changes nothing either (log 1). -/
def Obligations.StepWithoutEvent : Prop :=
  ∀ (s : State) (rest : List Presented),
    (∀ c, s.inputs = ⟨true, c⟩ :: rest →
      step s = step { s with inputs := ⟨true, none⟩ :: rest }) ∧
    (s.inputs = ⟨false, none⟩ :: rest → step s = .next { s with inputs := rest }) ∧
    (s.inputs = [] → step s = .next s)

/-- R152: RESET writes every register but `RBUF`, in every state, whatever event is presented with it;
a transport event that still arrives faults with F_UNEXPECTED. -/
def Obligations.ResetWritesEveryRegister : Prop :=
  ∀ (s : State) (c : Option Code) (rest : List Presented), s.inputs = ⟨true, c⟩ :: rest →
    ∃ t, step s = .next t ∧
      t = { acc := 0xFFFF#16, phase := 0#2, op := 0#2, tidx := 0#2, ridx := 0#4, rbuf := s.rbuf, status := 0#2,
            fault := 0#2, hum := 0#16, humV := false, temp := 0#16, tempV := false, info := 0#56, infoV := false,
            inputs := rest } ∧
      ∀ i, isTxEvent i = true ∨ isRxEvent i = true → exec i t = .next { t with fault := 3#2 }

/-- R153: the outputs in the reset state. -/
def Obligations.ResetOutputs : Prop :=
  ∀ s : State, outputs (resetPin s) =
      { evReady := true, busy := false, op := 0#2, status := 0#2, fault := 0#2, crcVal := 0xFFFF,
        crcHi := 0xFF, crcLo := 0xFF, txValid := false, txByte := 0x00, rxReady := false, rxLen := 0,
        hum := 0#16, humV := false, temp := 0#16, tempV := false, info := 0#56, infoV := false } ∧
    outputs State.reset = outputs (resetPin s)

/-- R135, R136: an event in a phase that does not admit it, and an illegal word, record their cause if
none is recorded and change nothing else; in the phase that admits it, in a state that meets the
invariants, the event runs and records nothing. PHASE = 3 is no column of R135's table; it is treated as
the event rules' "Otherwise" says (log 5). -/
def Obligations.AdmissionTable : Prop :=
  (∀ (i : Instr) (s : State),
    (isHostEvent i = true → s.phase ≠ 0#2 →
      exec i s = .next { s with fault := if s.fault = 0#2 then 2#2 else s.fault }) ∧
    (isTxEvent i = true → s.phase ≠ 1#2 →
      exec i s = .next { s with fault := if s.fault = 0#2 then 3#2 else s.fault }) ∧
    (isRxEvent i = true → s.phase ≠ 2#2 →
      exec i s = .next { s with fault := if s.fault = 0#2 then 3#2 else s.fault }) ∧
    (s.Inv → (isHostEvent i = true ∧ s.phase = 0#2) ∨ (isTxEvent i = true ∧ s.phase = 1#2) ∨
        (isRxEvent i = true ∧ s.phase = 2#2) →
      ∃ t, exec i s = .next t ∧ t.fault = s.fault)) ∧
  ∀ (s : State) (w : EventWord) (r : Reject), decodeEvent w = .error r →
    executeRejected (.event w) s = .next { s with fault := if s.fault = 0#2 then 1#2 else s.fault }

/-- No instruction stops the block, and no step but the one that presents a 24-bit pattern which is no
request frame (log 9), from any state that meets the invariants (R48, R135). -/
def Obligations.NothingStopsTheBlock : Prop :=
  (∀ (i : Instr) (s : State), s.Inv → ∃ t, exec i s = .next t) ∧
  ∀ s : State, s.Inv → (∃ t, step s = .next t) ∨
    (step s = .refused .requestNeverEmitted ∧
      ∃ w rest, s.inputs = ⟨false, some (.request w)⟩ :: rest ∧
        w ∉ [0x030002, 0x030202, 0x030004, 0x030807])

/-- The three stops of the model (logs 3, 4 and 9): an `RBUF` index above 10, a fourth request byte,
and a 24-bit pattern that the block cannot emit. No reachable state has the first two. -/
def Obligations.StopsOfTheModel : Prop :=
  (∀ (b : Byte) (s : State), s.phase = 2#2 → 11 ≤ s.ridx.toNat →
    exec (.tRxbyte b) s = .fault .rbufIndex) ∧
  (∀ s : State, s.phase = 1#2 → s.tidx = 3#2 → exec .tTxack s = .fault .tidxRange) ∧
  (∀ (s : State) (w : RequestWord) (rest : List Presented),
    s.inputs = ⟨false, some (.request w)⟩ :: rest →
    w ∉ [0x030002, 0x030202, 0x030004, 0x030807] → step s = .refused .requestNeverEmitted)

/-- R33: the output ports, functions of the state alone. -/
def Obligations.OutputPorts : Prop :=
  ∀ s : State,
    ((outputs s).evReady = true ∧ ((outputs s).busy = true ↔ s.phase ≠ 0#2) ∧ (outputs s).op = s.op ∧
      (outputs s).status = s.status ∧ (outputs s).fault = s.fault ∧ (outputs s).crcVal = s.acc ∧
      (outputs s).crcHi = s.acc.extractLsb' 8 8 ∧ (outputs s).crcLo = s.acc.extractLsb' 0 8) ∧
    (((outputs s).txValid = true ↔ s.phase = 1#2) ∧ (outputs s).txByte = txByte s ∧
      ((outputs s).rxReady = true ↔ s.phase = 2#2) ∧
      (outputs s).rxLen.toNat = (if s.phase = 2#2 then respLen s.op else 0)) ∧
    ((outputs s).hum = s.hum ∧ (outputs s).humV = s.humV ∧ (outputs s).temp = s.temp ∧
      (outputs s).tempV = s.tempV ∧ (outputs s).info = s.info ∧ (outputs s).infoV = s.infoV)

/-! ## The events -/

/-- R93: CRC.INIT loads the accumulator in IDLE and writes nothing else; elsewhere it faults; its word,
and the words 0x1xx beside it, which are illegal. -/
def Obligations.CrcInitLoadsAccumulator : Prop :=
  (∀ s : State, (s.phase = 0#2 → exec .crcInit s = .next { s with acc := 0xFFFF#16 }) ∧
    (s.phase ≠ 0#2 →
      exec .crcInit s = .next { s with fault := if s.fault = 0#2 then 2#2 else s.fault })) ∧
  encode .crcInit = .event 0x100 ∧
  ∀ (x : Byte) (s : State) (rest : List Presented), x ≠ 0 →
    s.inputs = ⟨false, some (.event (0x1#4 ++ x))⟩ :: rest →
    step s = .next { s with fault := if s.fault = 0#2 then 1#2 else s.fault, inputs := rest }

/-- R94: CRC.BYTE absorbs one byte in IDLE, from whatever the accumulator holds, and writes nothing
else; elsewhere it faults; its word and the rule's corner cases. -/
def Obligations.CrcByteAbsorbsByte : Prop :=
  (∀ (b : Byte) (s : State),
    (s.phase = 0#2 → exec (.crcByte b) s = .next { s with acc := crcByte s.acc b }) ∧
    (s.phase ≠ 0#2 →
      exec (.crcByte b) s = .next { s with fault := if s.fault = 0#2 then 2#2 else s.fault }) ∧
    encode (.crcByte b) = .event (0x200 + b.setWidth 12)) ∧
  crcByte 0xFFFF 0x00 = 0x40BF ∧ crcByte 0xFFFF 0xFF = 0x00FF ∧ crcByte 0x00FF 0xFF = 0x0000 ∧
  crcByte 0x0000 0x00 = 0x0000 ∧ crcByte 0xFFFF 0x03 = 0x41FF

/-- R101: what the four RD events do, with the operation and the word of each (R102 to R105); a word
0x3xx above 0x303 is illegal. -/
def Obligations.ReadEventsStartTransaction : Prop :=
  (∀ x ∈ [(Instr.rdHum, 0#2), (.rdTemp, 1#2), (.rdBoth, 2#2), (.rdInfo, 3#2)], ∀ s : State,
    encode x.1 = .event (0x300 + x.2.setWidth 12) ∧
    (s.phase = 0#2 → ∃ t, exec x.1 s = .next t ∧
      t = { s with op := x.2, tidx := 0#2, ridx := 0#4, acc := 0xFFFF#16, status := 0#2, hum := 0#16,
                   humV := false, temp := 0#16, tempV := false, info := 0#56, infoV := false, phase := 1#2 } ∧
      (outputs t).busy = true ∧ (outputs t).txValid = true ∧ (outputs t).txByte = 0x03 ∧
      (outputs t).rxReady = false ∧ (outputs t).status = 0#2 ∧ (outputs t).humV = false ∧
      (outputs t).tempV = false ∧ (outputs t).infoV = false ∧ (outputs t).crcVal = 0xFFFF) ∧
    (s.phase ≠ 0#2 → exec x.1 s = .next { s with fault := if s.fault = 0#2 then 2#2 else s.fault })) ∧
  ∀ (x : Byte) (s : State) (rest : List Presented), 3 < x.toNat →
    s.inputs = ⟨false, some (.event (0x3#4 ++ x))⟩ :: rest →
    step s = .next { s with fault := if s.fault = 0#2 then 1#2 else s.fault, inputs := rest }

/-- R107: T.TXACK takes the offered byte; the third one ends the write and begins the read. -/
def Obligations.TxackTakesOfferedByte : Prop :=
  (∀ s : State,
    (s.phase = 1#2 → s.tidx = 2#2 → ∃ t, exec .tTxack s = .next t ∧
      t = { s with tidx := 3#2, phase := 2#2 } ∧ (outputs t).txValid = false ∧
      (outputs t).rxReady = true ∧ (outputs t).rxLen.toNat = respLen s.op) ∧
    (s.phase = 1#2 → s.tidx = 0#2 ∨ s.tidx = 1#2 → ∃ t, exec .tTxack s = .next t ∧
      t = { s with tidx := t.tidx } ∧ t.tidx.toNat = s.tidx.toNat + 1) ∧
    (s.phase ≠ 1#2 →
      exec .tTxack s = .next { s with fault := if s.fault = 0#2 then 3#2 else s.fault })) ∧
  encode .tTxack = .event 0x800

/-- R108, R114: a transport error ends the transaction at any position, with no result; `TIDX`, `RIDX`,
`RBUF` and `ACC` keep what they held; in another phase it faults. -/
def Obligations.TransportErrorsEndTransaction : Prop :=
  (∀ x ∈ [(Instr.tTxerr, 1#2), (.tRxerr, 2#2)], ∀ s : State,
    (s.phase = x.2 → exec x.1 s = .next
      { s with phase := 0#2, status := 3#2, hum := 0#16, humV := false, temp := 0#16, tempV := false,
               info := 0#56, infoV := false }) ∧
    (s.phase ≠ x.2 →
      exec x.1 s = .next { s with fault := if s.fault = 0#2 then 3#2 else s.fault })) ∧
  encode .tTxerr = .event 0x900 ∧ encode .tRxerr = .event 0xB00

/-- R113: T.RXBYTE stores its byte at `RBUF[RIDX]`, absorbs it unless it is a CRC byte, counts it, and
completes the transaction with the last one; in another phase it faults and drops the byte. -/
def Obligations.RxbyteStoresByte : Prop :=
  ∀ (b : Byte) (s : State), Memory.wf s.rbuf = true →
    (s.phase = 2#2 → s.ridx.toNat < respLen s.op → ∃ u,
      u = { s with rbuf := u.rbuf, ridx := u.ridx,
                   acc := if s.ridx.toNat < respLen s.op - 2 then crcByte s.acc b else s.acc } ∧
      u.ridx.toNat = s.ridx.toNat + 1 ∧ Memory.read u.rbuf s.ridx.toNat = b ∧
      (∀ a, a ≠ s.ridx.toNat → Memory.read u.rbuf a = Memory.read s.rbuf a) ∧
      exec (.tRxbyte b) s =
        .next (if s.ridx.toNat + 1 = respLen s.op then complete u else u)) ∧
    (s.phase ≠ 2#2 →
      exec (.tRxbyte b) s = .next { s with fault := if s.fault = 0#2 then 3#2 else s.fault }) ∧
    encode (.tRxbyte b) = .event (0xA00 + b.setWidth 12)

/-- R115, R119, R137: the last byte of a response ends the transaction: ST_OK and the extracted fields
where the response is valid, ST_PROTOCOL_ERROR and no result where it is not. -/
def Obligations.LastByteCompletesTransaction : Prop :=
  ∀ (b : Byte) (s : State), Memory.wf s.rbuf = true → s.phase = 2#2 →
    s.ridx.toNat + 1 = respLen s.op →
    ∃ t r, exec (.tRxbyte b) s = .next t ∧ r = memBytes s.rbuf 0 s.ridx.toNat ++ [b] ∧
      memBytes t.rbuf 0 (respLen s.op) = r ∧
      (∀ a, respLen s.op ≤ a → Memory.read t.rbuf a = Memory.read s.rbuf a) ∧
      (responseValid s.op r = true → t =
        { s with rbuf := t.rbuf, ridx := rlen s.op, phase := 0#2, status := 1#2,
                 hum := if s.op = 0#2 ∨ s.op = 2#2 then fieldAt r 2 else 0
                 humV := decide (s.op = 0#2 ∨ s.op = 2#2)
                 temp := if s.op = 1#2 then fieldAt r 2 else if s.op = 2#2 then fieldAt r 4 else 0
                 tempV := decide (s.op = 1#2 ∨ s.op = 2#2)
                 info := if s.op = 3#2 then infoAt r else 0
                 infoV := decide (s.op = 3#2) }) ∧
      (responseValid s.op r = false → t =
        { s with rbuf := t.rbuf, ridx := rlen s.op, phase := 0#2, status := 2#2, hum := 0#16, humV := false,
                 temp := 0#16, tempV := false, info := 0#56, infoV := false })

/-- R115's last paragraph, R116: in a state that meets the invariants the verdict on the last byte is
the comparison of the echoes and of the two CRC bytes with the accumulator, which holds the CRC of the
bytes 0 to `RLEN - 3` and is not written. The model recomputes that CRC (log 10). -/
def Obligations.VerdictComparesWithAccumulator : Prop :=
  ∀ (b : Byte) (s : State), s.Inv → s.phase = 2#2 → s.ridx.toNat + 1 = respLen s.op →
    ∃ t, exec (.tRxbyte b) s = .next t ∧
      (t.status = 1#2 ↔ Memory.read s.rbuf 0 = 0x03 ∧ Memory.read s.rbuf 1 = reqCount s.op ∧
        Memory.read s.rbuf (respLen s.op - 2) = s.acc.extractLsb' 0 8 ∧
        b = s.acc.extractLsb' 8 8) ∧
      (t.status ≠ 1#2 → t.status = 2#2) ∧ t.acc = s.acc ∧
      s.acc = crc16 (memBytes s.rbuf 0 (respLen s.op - 2))

/-- R117: validity is the four equalities, and nothing else: the start register is not checked. -/
def Obligations.ResponseValidIsFourEqualities : Prop :=
  (∀ (op : BitVec 2) (r : List Byte), r.length = (reqCount op).toNat + 4 →
    (responseValid op r = true ↔
      byteAt r 0 = 0x03 ∧ byteAt r 1 = reqCount op ∧
      byteAt r (r.length - 2) = (crc16 (r.take (r.length - 2))).extractLsb' 0 8 ∧
      byteAt r (r.length - 1) = (crc16 (r.take (r.length - 2))).extractLsb' 8 8)) ∧
  ∀ r : List Byte, responseValid 0 r = responseValid 1 r

/-- R118, with the field assembly of R77: what each operation extracts. -/
def Obligations.ExtractedFields : Prop :=
  (∀ b0 b1 b2 b3 b4 b5 : Byte,
    extract 0 [b0, b1, b2, b3, b4, b5] = ⟨some (b2 ++ b3), none, none⟩ ∧
    extract 1 [b0, b1, b2, b3, b4, b5] = ⟨none, some (b2 ++ b3), none⟩ ∧
    (b2 ++ b3).toNat = b2.toNat * 256 + b3.toNat) ∧
  (∀ b0 b1 b2 b3 b4 b5 b6 b7 : Byte,
    extract 2 [b0, b1, b2, b3, b4, b5, b6, b7] = ⟨some (b2 ++ b3), some (b4 ++ b5), none⟩) ∧
  ∀ b0 b1 b2 b3 b4 b5 b6 b7 b8 b9 b10 : Byte,
    extract 3 [b0, b1, b2, b3, b4, b5, b6, b7, b8, b9, b10] =
      ⟨none, none, some (b2 ++ b3 ++ b4 ++ b5 ++ b6 ++ b7 ++ b8)⟩

/-- R121: the physical value is the exact rational raw / 10, of the unsigned field (R120). -/
def Obligations.ScalingIsExact : Prop :=
  (∀ raw : Word, phys raw * 10 = (raw.toNat : Rat)) ∧
  (∀ hi lo : Byte, phys (joinBytes hi lo) * 10 = ((hi.toNat * 256 + lo.toNat : Nat) : Rat)) ∧
  phys 0x01C2 = 45 ∧ phys 0xFFFF = 13107 / 2

/-! ## Sending and receiving -/

/-- R34, R106: the byte on offer is `request_frame(OP)[TIDX]`, and it stays on offer until a transport
event of phase TX arrives. -/
def Obligations.OfferedRequestByte : Prop :=
  ∀ s : State, (s.phase ≠ 1#2 → txByte s = 0x00) ∧
    (s.phase = 1#2 → s.tidx ≠ 3#2 → txByte s = byteAt (requestFrame s.op) s.tidx.toNat) ∧
    (s.phase = 1#2 → s.tidx = 0#2 → txByte s = 0x03) ∧
    (∀ (i : Instr) (t : State), s.phase = 1#2 → isHostEvent i = true ∨ isRxEvent i = true →
      exec i s = .next t → txByte t = txByte s ∧ (outputs t).txValid = true)

/-- R109: the write, as a whole, through the step: the bytes on offer, the state after three T.TXACK,
and the state after a T.TXERR that follows `k` of them. -/
def Obligations.WriteAsAWhole : Prop :=
  ∀ (s : State) (op : BitVec 2), s.phase = 0#2 →
    (∀ k, k < 3 → ∃ t u, runScript (requestScript op k) s = .next t ∧ t.phase = 1#2 ∧
      txByte t = byteAt (requestFrame op) k ∧
      runScript (requestScript op k ++ [shown .tTxerr]) s = .next u ∧
      u = { s with op := op, tidx := t.tidx, ridx := 0#4, acc := 0xFFFF#16, status := 3#2, hum := 0#16,
                   humV := false, temp := 0#16, tempV := false, info := 0#56, infoV := false, inputs := [] } ∧
      t.tidx.toNat = k) ∧
    ∃ t, runScript (requestScript op 3) s = .next t ∧ t.phase = 2#2 ∧ t.tidx = 3#2 ∧ t.ridx = 0#4 ∧
      t.acc = 0xFFFF#16 ∧ t.status = 0#2

/-- The request-frame rows (log 6 names the model's choice): from IDLE the whole write of the
frame, to the state R109 gives; where the frame stands on offer whole, the transport takes it; in any
other case the block is busy. -/
def Obligations.RequestFramesGoOut : Prop :=
  ∀ x ∈ [(Instr.reqHum, 0#2), (.reqTemp, 1#2), (.reqBoth, 2#2), (.reqInfo, 3#2)], ∀ s : State,
    (s.phase = 0#2 → exec x.1 s = .next
      { s with op := x.2, tidx := 3#2, ridx := 0#4, acc := 0xFFFF#16, status := 0#2, hum := 0#16, humV := false,
               temp := 0#16, tempV := false, info := 0#56, infoV := false, phase := 2#2 }) ∧
    (s.phase = 1#2 → s.tidx = 0#2 → s.op = x.2 →
      exec x.1 s = .next { s with tidx := 3#2, phase := 2#2 }) ∧
    (s.phase ≠ 0#2 → ¬(s.phase = 1#2 ∧ s.tidx = 0#2 ∧ s.op = x.2) →
      exec x.1 s = .next { s with fault := if s.fault = 0#2 then 2#2 else s.fault })

/-- The response-frame rows (log 7 names the model's choice): delivered to a block that awaits them
they end the transaction as R117 and R119 say; delivered in another phase they fault. -/
def Obligations.ResponseFramesComplete : Prop :=
  (∀ (h crc : Word) (s : State), s.Inv → s.phase = 2#2 → s.ridx = 0#4 → s.op = 0#2 → ∃ t,
    exec (.respHum h crc) s = .next t ∧ memBytes t.rbuf 0 6 = coveredField h ++ crcWire crc ∧
    (∀ a, 6 ≤ a → Memory.read t.rbuf a = Memory.read s.rbuf a) ∧
    t = { s with rbuf := t.rbuf, acc := crc16 (coveredField h), ridx := 6#4, phase := 0#2
                 status := if crc = crc16 (coveredField h) then 1 else 2
                 hum := if crc = crc16 (coveredField h) then h else 0
                 humV := decide (crc = crc16 (coveredField h)) }) ∧
  (∀ (v crc : Word) (s : State), s.Inv → s.phase = 2#2 → s.ridx = 0#4 → s.op = 1#2 → ∃ t,
    exec (.respTemp v crc) s = .next t ∧ memBytes t.rbuf 0 6 = coveredField v ++ crcWire crc ∧
    (∀ a, 6 ≤ a → Memory.read t.rbuf a = Memory.read s.rbuf a) ∧
    t = { s with rbuf := t.rbuf, acc := crc16 (coveredField v), ridx := 6#4, phase := 0#2
                 status := if crc = crc16 (coveredField v) then 1 else 2
                 temp := if crc = crc16 (coveredField v) then v else 0
                 tempV := decide (crc = crc16 (coveredField v)) }) ∧
  (∀ (h v crc : Word) (s : State), s.Inv → s.phase = 2#2 → s.ridx = 0#4 → s.op = 2#2 → ∃ t,
    exec (.respBoth h v crc) s = .next t ∧ memBytes t.rbuf 0 8 = coveredBoth h v ++ crcWire crc ∧
    (∀ a, 8 ≤ a → Memory.read t.rbuf a = Memory.read s.rbuf a) ∧
    t = { s with rbuf := t.rbuf, acc := crc16 (coveredBoth h v), ridx := 8#4, phase := 0#2
                 status := if crc = crc16 (coveredBoth h v) then 1 else 2
                 hum := if crc = crc16 (coveredBoth h v) then h else 0
                 humV := decide (crc = crc16 (coveredBoth h v))
                 temp := if crc = crc16 (coveredBoth h v) then v else 0
                 tempV := decide (crc = crc16 (coveredBoth h v)) }) ∧
  (∀ (d : InfoWord) (crc : Word) (s : State), s.Inv → s.phase = 2#2 → s.ridx = 0#4 → s.op = 3#2 → ∃ t,
    exec (.respInfo d crc) s = .next t ∧ memBytes t.rbuf 0 11 = coveredInfo d ++ crcWire crc ∧
    t = { s with rbuf := t.rbuf, acc := crc16 (coveredInfo d), ridx := 11#4, phase := 0#2
                 status := if crc = crc16 (coveredInfo d) then 1 else 2
                 info := if crc = crc16 (coveredInfo d) then d else 0
                 infoV := decide (crc = crc16 (coveredInfo d)) }) ∧
  ∀ (i : Instr) (s : State), 2 ≤ (deliveredBytes i).length → s.phase ≠ 2#2 →
    exec i s = .next { s with fault := if s.fault = 0#2 then 3#2 else s.fault }

/-- The frame rows add no behaviour to the block: one step of a frame is the run of the event words
that carry it (logs 6, 7 and 8; R83, R84, R109). -/
def Obligations.FramesAreEventRuns : Prop :=
  (∀ (s : State) (bytes : List Byte) (rest : List Presented),
    runSteps 1 { s with inputs := ⟨false, some (.response bytes)⟩ :: rest } =
      runSteps bytes.length { s with inputs := readScript bytes ++ rest }) ∧
  ∀ (s : State) (op : BitVec 2) (rest : List Presented),
    runSteps 1 { s with inputs :=
        ⟨false, some (.request (requestWord (reqFc op) (reqStart op) (reqCount op)))⟩ :: rest } =
      if s.phase = 1#2 ∧ s.tidx = 0#2 ∧ s.op = op then
        runSteps 3 { s with inputs := List.replicate 3 (shown .tTxack) ++ rest }
      else if s.phase = 0#2 then
        runSteps 4 { s with inputs := requestScript op 3 ++ rest }
      else runSteps 1 { s with inputs := shown (readEvent op) :: rest }

/-! ## The transaction -/

/-- R128, its first part: from IDLE, RD for `op`, three T.TXACK and the bytes `r` fault nowhere, show
the transport `request_frame(op)`, and end as `response_valid` and `extract` say of `r`. -/
def Obligations.TransactionRefinesCodec : Prop :=
  ∀ (s : State) (op : BitVec 2) (r : List Byte), s.Inv → s.phase = 0#2 →
    r.length = (reqCount op).toNat + 4 →
    (∀ k, k ≤ (transactionScript op r).length → ∃ t,
      runScript ((transactionScript op r).take k) s = .next t ∧ t.fault = s.fault) ∧
    (∀ k, k < 3 → ∃ t, runScript ((transactionScript op r).take (k + 1)) s = .next t ∧
      txByte t = byteAt (requestFrame op) k) ∧
    ∃ t, runScript (transactionScript op r) s = .next t ∧ t.phase = 0#2 ∧ t.op = op ∧ t.tidx = 3#2 ∧
      t.ridx.toNat = r.length ∧ t.acc = crc16 (r.take (r.length - 2)) ∧ t.fault = s.fault ∧
      (responseValid op r = true → t.status = 1#2 ∧
        t.hum = (extract op r).hum.getD 0 ∧ t.humV = (extract op r).hum.isSome ∧
        t.temp = (extract op r).temp.getD 0 ∧ t.tempV = (extract op r).temp.isSome ∧
        t.info = (extract op r).info.getD 0 ∧ t.infoV = (extract op r).info.isSome) ∧
      (responseValid op r = false → t.status = 2#2 ∧ ResultsClear t)

/-- R128, its last paragraph: a transport error at any position of the write or the read ends the
transaction with ST_TRANSPORT_ERROR and no result, and later transport events fault. -/
def Obligations.TransactionEndsOnTransportError : Prop :=
  ∀ (s : State) (op : BitVec 2), s.Inv → s.phase = 0#2 → ∀ script,
    ((∃ k, k < 3 ∧ script = requestScript op k ++ [shown .tTxerr]) ∨
      (∃ r, r.length < (reqCount op).toNat + 4 ∧
        script = transactionScript op r ++ [shown .tRxerr])) →
    ∃ t, runScript script s = .next t ∧ t.phase = 0#2 ∧ t.op = op ∧ t.status = 3#2 ∧ ResultsClear t ∧
      t.fault = s.fault ∧
      ∀ i, isTxEvent i = true ∨ isRxEvent i = true →
        exec i t = .next { t with fault := if t.fault = 0#2 then 3#2 else t.fault }

/-- R129 items 1 and 2: a wrong echo is never valid, and one changed data byte always makes a valid
response invalid. -/
def Obligations.CorruptionRejected : Prop :=
  (∀ (op : BitVec 2) (r : List Byte),
    byteAt r 0 ≠ 0x03 ∨ byteAt r 1 ≠ reqCount op → responseValid op r = false) ∧
  ∀ (op : BitVec 2) (r : List Byte) (i : Nat) (x : Byte), r.length = (reqCount op).toNat + 4 →
    responseValid op r = true → 2 ≤ i → i < r.length - 2 → x ≠ byteAt r i →
    responseValid op (r.set i x) = false

/-- R129 items 3 and 4: the source's own examples, through the step: a temperature frame gives
`((high_byte<<8 | low_byte)) / 10.0`, and `03 02 01 C2 21 A1` gives humidity 45. -/
def Obligations.SourceExamples : Prop :=
  ∀ s : State, s.Inv → s.phase = 0#2 →
    (∀ hi lo : Byte, ∃ t,
      runScript (transactionScript 1 ([0x03, 0x02, hi, lo] ++ crcWire (crc16 [0x03, 0x02, hi, lo]))) s =
        .next t ∧ t.status = 1#2 ∧ t.tempV = true ∧ t.temp = hi ++ lo ∧ t.humV = false ∧
      phys t.temp = ((hi.toNat * 256 + lo.toNat : Nat) : Rat) / 10) ∧
    crc16 [0x03, 0x02, 0x01, 0xC2] = 0xA121 ∧
    ∃ t, runScript (transactionScript 0 [0x03, 0x02, 0x01, 0xC2, 0x21, 0xA1]) s = .next t ∧
      t.status = 1#2 ∧ t.humV = true ∧ t.hum = 0x01C2#16 ∧ t.tempV = false ∧ phys t.hum = 45

/-- R157: the accumulator is shared. An RD event in the middle of a CRC loses the running value with no
fault; a CRC without CRC.INIT continues from the leftover. -/
def Obligations.SharedAccumulatorHazard : Prop :=
  ∀ (s : State) (op : BitVec 2) (before after : List Byte), s.phase = 0#2 →
    (∃ t, runScript (crcScript before ++ requestScript op 0 ++ [shown .tTxerr] ++
        after.map fun b => shown (.crcByte b)) s = .next t ∧
      t.acc = crc16 after ∧ t.fault = s.fault ∧ t.status = 3#2) ∧
    (∀ r : List Byte, s.Inv → r.length = (reqCount op).toNat + 4 → ∃ t,
      runScript (transactionScript op r ++ after.map fun b => shown (.crcByte b)) s = .next t ∧
      t.acc = crcRun (crc16 (r.take (r.length - 2))) after ∧ t.fault = s.fault)

/-! ## Invariants and whole-machine rules -/

/-- R36 items 1 to 8 and the canonical form of the memory: every step keeps them. -/
def Obligations.InvariantKeptByEveryStep : Prop :=
  ∀ s t : State, s.Inv → step s = .next t → t.Inv

/-- The reset state meets the invariants, with `RBUF` of `State.reset` (log 2) and with any other
(R154), and RESET re-establishes them in every state whose memory is canonical. -/
def Obligations.ResetMeetsInvariant : Prop :=
  State.reset.Inv ∧ ∀ s : State, Memory.wf s.rbuf = true → (resetPin s).Inv ∧ (resetPin s).ResultsBacked

/-- R124: no partial result. A valid result register holds its field of the response in `RBUF`, which
passed all four checks for `OP`; every step keeps this; both fields of BOTH come together or not at all. -/
def Obligations.NoPartialResult : Prop :=
  (∀ s t : State, s.Inv → s.ResultsBacked → step s = .next t → t.ResultsBacked) ∧
  ∀ s : State, s.Inv → (s.op = 2#2 → s.humV = s.tempV) ∧
    (s.status ≠ 1#2 → s.humV = false ∧ s.tempV = false ∧ s.infoV = false ∧ s.hum = 0#16 ∧ s.temp = 0#16 ∧
      s.info = 0#56)

/-- R162, R36 item 9: a step without `rst` never changes a recorded fault, and an event that faults
then leaves no trace. -/
def Obligations.FirstFaultSticks : Prop :=
  ∀ (s : State) (c : Option Code) (rest : List Presented), s.inputs = ⟨false, c⟩ :: rest →
    s.fault ≠ 0#2 →
    (∀ t, step s = .next t → t.fault = s.fault) ∧
    (∀ w r, c = some (.event w) → decodeEvent w = .error r → step s = .next { s with inputs := rest }) ∧
    (∀ w i, c = some (.event w) → decodeEvent w = .ok i →
      ((isHostEvent i = true ∧ s.phase ≠ 0#2) ∨ (isTxEvent i = true ∧ s.phase ≠ 1#2) ∨
        (isRxEvent i = true ∧ s.phase ≠ 2#2)) → step s = .next { s with inputs := rest })

/-- R110: the phase graph is the whole of the control flow: an event that changes `PHASE` takes one of
its edges, and RESET leads to IDLE from every phase. -/
def Obligations.PhaseGraph : Prop :=
  (∀ (i : Instr) (s t : State),
    isHostEvent i = true ∨ isTxEvent i = true ∨ isRxEvent i = true → exec i s = .next t →
    t.phase = s.phase ∨
    (s.phase = 0#2 ∧ t.phase = 1#2 ∧ i ∈ [.rdHum, .rdTemp, .rdBoth, .rdInfo]) ∨
    (s.phase = 1#2 ∧ t.phase = 2#2 ∧ i = .tTxack ∧ s.tidx = 2#2) ∨
    (s.phase = 1#2 ∧ t.phase = 0#2 ∧ i = .tTxerr ∧ t.status = 3#2) ∨
    (s.phase = 2#2 ∧ t.phase = 0#2 ∧ (∃ b, i = .tRxbyte b) ∧ s.ridx.toNat + 1 = respLen s.op ∧
      (t.status = 1#2 ∨ t.status = 2#2)) ∨
    (s.phase = 2#2 ∧ t.phase = 0#2 ∧ i = .tRxerr ∧ t.status = 3#2)) ∧
  ∀ (s t : State) (c : Option Code) (rest : List Presented), s.inputs = ⟨true, c⟩ :: rest →
    step s = .next t → t.phase = 0#2

/-- Each register is written only by the events that R15 names as its writers; a frame row writes what
the events it stands for write. Nothing an instruction does touches what is presented later. -/
def Obligations.RegistersHaveTheirWriters : Prop :=
  ∀ (i : Instr) (s t : State), exec i s = .next t →
    t.inputs = s.inputs ∧
    (i ≠ .crcInit → (∀ b, i ≠ .crcByte b) → startedOp i = none → deliveredBytes i = [] →
      t.acc = s.acc) ∧
    (startedOp i = none → t.op = s.op) ∧
    (startedOp i = none → i ≠ .tTxack → t.tidx = s.tidx) ∧
    (startedOp i = none → deliveredBytes i = [] → t.ridx = s.ridx) ∧
    (i = .crcInit ∨ (∃ b, i = .crcByte b) → t.phase = s.phase) ∧
    (i = .crcInit ∨ (∃ b, i = .crcByte b) ∨ i = .tTxack →
      t.status = s.status ∧ t.hum = s.hum ∧ t.humV = s.humV ∧ t.temp = s.temp ∧ t.tempV = s.tempV ∧
      t.info = s.info ∧ t.infoV = s.infoV) ∧
    (t.fault = s.fault ∨ (s.fault = 0#2 ∧ (t.fault = 2#2 ∨ t.fault = 3#2)))

/-- R20, R56: `RBUF` is written at `RBUF[RIDX]` and upwards, one byte for each byte delivered, and only
in phase RX; an instruction that delivers none leaves every byte. -/
def Obligations.BufferWrittenOnlyAtRidx : Prop :=
  ∀ (i : Instr) (s t : State), exec i s = .next t →
    (∀ a, a < s.ridx.toNat ∨ s.ridx.toNat + (deliveredBytes i).length ≤ a →
      Memory.read t.rbuf a = Memory.read s.rbuf a) ∧
    (s.phase ≠ 2#2 → t.rbuf = s.rbuf)

/-- R32 item 1: no output and no later state depends on a byte of `RBUF` that the current transaction
has not written: two states that differ only in such bytes stay so, with the same outputs, for ever. -/
def Obligations.StaleBufferUnobservable : Prop :=
  ∀ (s : State) (m : Memory), s.Inv → Memory.wf m = true →
    (s.phase = 2#2 → ∀ a, a < s.ridx.toNat → Memory.read m a = Memory.read s.rbuf a) →
    outputs { s with rbuf := m } = outputs s ∧
    ∀ t, step s = .next t → ∃ m', step { s with rbuf := m } = .next { t with rbuf := m' } ∧
      Memory.wf m' = true ∧
      (t.phase = 2#2 → ∀ a, a < t.ridx.toNat → Memory.read m' a = Memory.read t.rbuf a)

/-- R149: while no admitted transport event and no RESET arrives, the block stays in its phase, busy,
with ST_NONE, whatever else is presented and however long. -/
def Obligations.HangUntilTransportAnswers : Prop :=
  ∀ (s : State) (script : List Presented), s.Inv → s.phase = 1#2 ∨ s.phase = 2#2 →
    (∀ p ∈ script, p.rst = false ∧ ∀ c, p.code = some c → ∃ w, c = .event w ∧
      ∀ i, decodeEvent w = .ok i →
        ¬(isTxEvent i = true ∧ s.phase = 1#2) ∧ ¬(isRxEvent i = true ∧ s.phase = 2#2)) →
    ∃ t, runScript script s = .next t ∧ t = { s with fault := t.fault, inputs := [] } ∧
      (outputs t).busy = true ∧ t.status = 0#2
end

