-- ==== Sys2Proof/Laws/Memory.lean ====
section
/-! SUPPORT. The laws of `RBUF`: read after write, and that a write keeps the canonical form, so that equal memories are equal lists. -/

namespace Sys2Proof.Machine

/-- The canonical form of a non-empty list, as propositions. -/
theorem Memory.wf_cons {a : Nat} {b : Byte} {m : Memory} :
    Memory.wf ((a, b) :: m) = true ↔
      a < Config.rbufLen ∧ b ≠ Memory.unlisted ∧ (∀ c ∈ m, a < c.1) ∧ Memory.wf m = true := by
  simp only [Memory.wf, Bool.and_eq_true, decide_eq_true_eq, bne_iff_ne, List.all_eq_true, ne_eq]
  tauto

/-- An index below every listed one reads as unlisted. -/
theorem Memory.read_below {m : Memory} {i : Nat} (h : ∀ c ∈ m, i < c.1) :
    Memory.read m i = Memory.unlisted := by
  induction m with
  | nil => rfl
  | cons c m ih =>
    have hc : i < c.1 := h c (by simp)
    rw [Memory.read, if_neg (by omega)]
    exact ih fun d hd => h d (by simp [hd])

/-- The byte written reads back. -/
theorem Memory.read_write_same {m : Memory} (h : Memory.wf m = true) (i : Nat) (v : Byte) :
    Memory.read (Memory.write m i v) i = v := by
  induction m with
  | nil =>
    by_cases hv : v = Memory.unlisted
    · rw [Memory.write, if_pos hv, Memory.read, hv]
    · rw [Memory.write, if_neg hv, Memory.read, if_pos rfl]
  | cons c m ih =>
    obtain ⟨a, b⟩ := c
    obtain ⟨-, -, hlt, hm⟩ := Memory.wf_cons.1 h
    unfold Memory.write
    split
    · split
      · rename_i hia hv
        rw [Memory.read_below, hv]
        intro d hd
        rcases List.mem_cons.1 hd with rfl | hd
        · exact hia
        · have := hlt d hd; omega
      · simp [Memory.read]
    · split
      · rename_i hia
        subst hia
        split
        · rename_i hv
          rw [Memory.read_below hlt, hv]
        · simp [Memory.read]
      · rename_i h1 h2
        rw [Memory.read, if_neg (by omega)]
        exact ih hm

/-- Every other index reads as before. -/
theorem Memory.read_write_other {m : Memory} {i j : Nat} (hij : j ≠ i) (v : Byte) :
    Memory.read (Memory.write m i v) j = Memory.read m j := by
  induction m with
  | nil =>
    by_cases hv : v = Memory.unlisted
    · rw [Memory.write, if_pos hv]
    · simp only [Memory.write, if_neg hv, Memory.read, if_neg (Ne.symm hij)]
  | cons c m ih =>
    obtain ⟨a, b⟩ := c
    unfold Memory.write
    split
    · split
      · rfl
      · rw [Memory.read, if_neg (Ne.symm hij)]
    · split
      · rename_i hia
        subst hia
        split <;> simp [Memory.read, Ne.symm hij]
      · simp only [Memory.read, ih]

/-- The listed indices after a write are among the old ones and the written one. -/
theorem Memory.mem_write {m : Memory} {i : Nat} {v : Byte} {c : Host.Cell}
    (h : c ∈ Memory.write m i v) : c.1 = i ∨ c ∈ m := by
  induction m with
  | nil =>
    unfold Memory.write at h
    split at h
    · simp at h
    · simp only [List.mem_singleton] at h; exact .inl (by rw [h])
  | cons d m ih =>
    obtain ⟨a, b⟩ := d
    unfold Memory.write at h
    split at h
    · split at h
      · exact .inr h
      · rcases List.mem_cons.1 h with rfl | h
        · exact .inl rfl
        · exact .inr h
    · split at h
      · split at h
        · exact .inr (List.mem_cons_of_mem _ h)
        · rcases List.mem_cons.1 h with rfl | h
          · exact .inl rfl
          · exact .inr (List.mem_cons_of_mem _ h)
      · rcases List.mem_cons.1 h with rfl | h
        · exact .inr (List.mem_cons_self ..)
        · exact (ih h).imp_right (List.mem_cons_of_mem _)

/-- A write inside the buffer keeps the canonical form. -/
theorem Memory.write_wf {m : Memory} {i : Nat} (hi : i < 11)
    (h : Memory.wf m = true) (v : Byte) : Memory.wf (Memory.write m i v) = true := by
  induction m with
  | nil =>
    unfold Memory.write
    split
    · rfl
    · rename_i hv
      exact Memory.wf_cons.2 ⟨hi, hv, by simp, rfl⟩
  | cons c m ih =>
    obtain ⟨a, b⟩ := c
    obtain ⟨ha, hb, hlt, hm⟩ := Memory.wf_cons.1 h
    unfold Memory.write
    split
    · rename_i hia
      split
      · exact h
      · rename_i hv
        refine Memory.wf_cons.2 ⟨hi, hv, fun d hd => ?_, h⟩
        rcases List.mem_cons.1 hd with rfl | hd
        · exact hia
        · exact hia.trans (hlt d hd)
    · split
      · split
        · exact hm
        · rename_i hia hv
          subst hia
          exact Memory.wf_cons.2 ⟨hi, hv, hlt, hm⟩
      · rename_i h1 h2
        refine Memory.wf_cons.2 ⟨ha, hb, fun d hd => ?_, ih hm⟩
        rcases Memory.mem_write hd with hd | hd
        · rw [hd]; omega
        · exact hlt d hd

/-- Two canonical memories that read alike everywhere are the same list. -/
theorem Memory.ext {m n : Memory} (hm : Memory.wf m = true) (hn : Memory.wf n = true)
    (h : ∀ i, Memory.read m i = Memory.read n i) : m = n := by
  induction m generalizing n with
  | nil =>
    cases n with
    | nil => rfl
    | cons d n =>
      obtain ⟨a, b⟩ := d
      have hd := (Memory.wf_cons.1 hn).2.1
      have := h a
      simp [Memory.read] at this
      exact absurd this.symm hd
  | cons c m ih =>
    obtain ⟨a, b⟩ := c
    obtain ⟨-, hb, hlt, hm'⟩ := Memory.wf_cons.1 hm
    cases n with
    | nil =>
      have := h a
      simp [Memory.read] at this
      exact absurd this hb
    | cons d n =>
      obtain ⟨a', b'⟩ := d
      obtain ⟨-, hb', hlt', hn'⟩ := Memory.wf_cons.1 hn
      have haa : a = a' := by
        rcases Nat.lt_trichotomy a a' with hlt2 | heq | hlt2
        · have h1 := h a
          have h2 : Memory.read ((a', b') :: n) a = Memory.unlisted := by
            refine Memory.read_below fun d hd => ?_
            rcases List.mem_cons.1 hd with rfl | hd
            · exact hlt2
            · exact hlt2.trans (hlt' d hd)
          rw [h2] at h1
          simp [Memory.read] at h1
          exact absurd h1 hb
        · exact heq
        · have h1 := h a'
          have h2 : Memory.read ((a, b) :: m) a' = Memory.unlisted := by
            refine Memory.read_below fun d hd => ?_
            rcases List.mem_cons.1 hd with rfl | hd
            · exact hlt2
            · exact hlt2.trans (hlt d hd)
          rw [h2] at h1
          simp [Memory.read] at h1
          exact absurd h1.symm hb'
      subst haa
      have hbb : b = b' := by simpa [Memory.read] using h a
      subst hbb
      have : m = n := by
        refine ih hm' hn' fun i => ?_
        have hi := h i
        by_cases hai : a = i
        · subst hai
          rw [Memory.read_below hlt, Memory.read_below hlt']
        · simpa [Memory.read, hai] using hi
      rw [this]

/-! ## The bytes of a range -/

@[simp] theorem memBytes_length (m : Memory) (i n : Nat) : (memBytes m i n).length = n := by
  simp [memBytes]

/-- Byte `k` of a range. -/
theorem byteAt_memBytes {m : Memory} {i n k : Nat} (h : k < n) :
    byteAt (memBytes m i n) k = Memory.read m (i + k) := by
  simp [byteAt, memBytes, h]

/-- A range one longer ends in the next byte. -/
theorem memBytes_succ (m : Memory) (i n : Nat) :
    memBytes m i (n + 1) = memBytes m i n ++ [Memory.read m (i + n)] := by
  simp [memBytes, List.range_succ]

/-- A shorter range from the same start is a prefix. -/
theorem memBytes_take (m : Memory) (i : Nat) {n k : Nat} (h : k ≤ n) :
    (memBytes m i n).take k = memBytes m i k := by
  simp [memBytes, List.take_range, Nat.min_eq_left h, ← List.map_take]

/-- Ranges agree where every byte does. -/
theorem memBytes_congr {m m' : Memory} {i n : Nat}
    (h : ∀ k, k < n → Memory.read m (i + k) = Memory.read m' (i + k)) :
    memBytes m i n = memBytes m' i n := by
  simp only [memBytes]
  exact List.map_congr_left fun k hk => h k (List.mem_range.1 hk)

/-- A write at or above the end of a range leaves it. -/
theorem memBytes_write {m : Memory} {i n j : Nat} (h : i + n ≤ j) (v : Byte) :
    memBytes (Memory.write m j v) i n = memBytes m i n :=
  memBytes_congr fun k hk => Memory.read_write_other (by omega) v

end Sys2Proof.Machine
end

