-- ==== Sys2Proof/Laws/State.lean ====
section
/-! SUPPORT. One lemma per field per update of `State`, so that no later proof unfolds a record update. -/

namespace Sys2Proof.Machine

variable (s : State) (c st op : BitVec 2) (b : Byte)

/-! ## raiseFault (R136) -/

@[simp] theorem raiseFault_acc : (raiseFault c s).acc = s.acc := rfl
@[simp] theorem raiseFault_phase : (raiseFault c s).phase = s.phase := rfl
@[simp] theorem raiseFault_op : (raiseFault c s).op = s.op := rfl
@[simp] theorem raiseFault_tidx : (raiseFault c s).tidx = s.tidx := rfl
@[simp] theorem raiseFault_ridx : (raiseFault c s).ridx = s.ridx := rfl
@[simp] theorem raiseFault_rbuf : (raiseFault c s).rbuf = s.rbuf := rfl
@[simp] theorem raiseFault_status : (raiseFault c s).status = s.status := rfl
@[simp] theorem raiseFault_fault : (raiseFault c s).fault = if s.fault = Config.fNone then c else s.fault := rfl
@[simp] theorem raiseFault_hum : (raiseFault c s).hum = s.hum := rfl
@[simp] theorem raiseFault_humV : (raiseFault c s).humV = s.humV := rfl
@[simp] theorem raiseFault_temp : (raiseFault c s).temp = s.temp := rfl
@[simp] theorem raiseFault_tempV : (raiseFault c s).tempV = s.tempV := rfl
@[simp] theorem raiseFault_info : (raiseFault c s).info = s.info := rfl
@[simp] theorem raiseFault_infoV : (raiseFault c s).infoV = s.infoV := rfl
@[simp] theorem raiseFault_inputs : (raiseFault c s).inputs = s.inputs := rfl

/-! ## clearResults -/

@[simp] theorem clearResults_acc : (clearResults s).acc = s.acc := rfl
@[simp] theorem clearResults_phase : (clearResults s).phase = s.phase := rfl
@[simp] theorem clearResults_op : (clearResults s).op = s.op := rfl
@[simp] theorem clearResults_tidx : (clearResults s).tidx = s.tidx := rfl
@[simp] theorem clearResults_ridx : (clearResults s).ridx = s.ridx := rfl
@[simp] theorem clearResults_rbuf : (clearResults s).rbuf = s.rbuf := rfl
@[simp] theorem clearResults_status : (clearResults s).status = s.status := rfl
@[simp] theorem clearResults_fault : (clearResults s).fault = s.fault := rfl
@[simp] theorem clearResults_hum : (clearResults s).hum = 0#16 := rfl
@[simp] theorem clearResults_humV : (clearResults s).humV = false := rfl
@[simp] theorem clearResults_temp : (clearResults s).temp = 0#16 := rfl
@[simp] theorem clearResults_tempV : (clearResults s).tempV = false := rfl
@[simp] theorem clearResults_info : (clearResults s).info = 0#56 := rfl
@[simp] theorem clearResults_infoV : (clearResults s).infoV = false := rfl
@[simp] theorem clearResults_inputs : (clearResults s).inputs = s.inputs := rfl

/-! ## finish (R137) -/

@[simp] theorem finish_acc : (finish st s).acc = s.acc := by
  unfold finish; split <;> simp
@[simp] theorem finish_phase : (finish st s).phase = Config.phaseIdle := rfl
@[simp] theorem finish_op : (finish st s).op = s.op := by
  unfold finish; split <;> simp
@[simp] theorem finish_tidx : (finish st s).tidx = s.tidx := by
  unfold finish; split <;> simp
@[simp] theorem finish_ridx : (finish st s).ridx = s.ridx := by
  unfold finish; split <;> simp
@[simp] theorem finish_rbuf : (finish st s).rbuf = s.rbuf := by
  unfold finish; split <;> simp
@[simp] theorem finish_status : (finish st s).status = st := rfl
@[simp] theorem finish_fault : (finish st s).fault = s.fault := by
  unfold finish; split <;> simp
@[simp] theorem finish_hum : (finish st s).hum = if st = Config.stOk then s.hum else 0#16 := by
  unfold finish; split <;> simp
@[simp] theorem finish_humV : (finish st s).humV = if st = Config.stOk then s.humV else false := by
  unfold finish; split <;> simp
@[simp] theorem finish_temp : (finish st s).temp = if st = Config.stOk then s.temp else 0#16 := by
  unfold finish; split <;> simp
@[simp] theorem finish_tempV : (finish st s).tempV = if st = Config.stOk then s.tempV else false := by
  unfold finish; split <;> simp
@[simp] theorem finish_info : (finish st s).info = if st = Config.stOk then s.info else 0#56 := by
  unfold finish; split <;> simp
@[simp] theorem finish_infoV : (finish st s).infoV = if st = Config.stOk then s.infoV else false := by
  unfold finish; split <;> simp
@[simp] theorem finish_inputs : (finish st s).inputs = s.inputs := by
  unfold finish; split <;> simp

/-! ## writeResults (R119) -/

@[simp] theorem writeResults_acc : (writeResults s).acc = s.acc := rfl
@[simp] theorem writeResults_phase : (writeResults s).phase = s.phase := rfl
@[simp] theorem writeResults_op : (writeResults s).op = s.op := rfl
@[simp] theorem writeResults_tidx : (writeResults s).tidx = s.tidx := rfl
@[simp] theorem writeResults_ridx : (writeResults s).ridx = s.ridx := rfl
@[simp] theorem writeResults_rbuf : (writeResults s).rbuf = s.rbuf := rfl
@[simp] theorem writeResults_status : (writeResults s).status = s.status := rfl
@[simp] theorem writeResults_fault : (writeResults s).fault = s.fault := rfl
@[simp] theorem writeResults_hum : (writeResults s).hum = (extract s.op (received s)).hum.getD 0 := rfl
@[simp] theorem writeResults_humV : (writeResults s).humV = (extract s.op (received s)).hum.isSome := rfl
@[simp] theorem writeResults_temp : (writeResults s).temp = (extract s.op (received s)).temp.getD 0 := rfl
@[simp] theorem writeResults_tempV : (writeResults s).tempV = (extract s.op (received s)).temp.isSome := rfl
@[simp] theorem writeResults_info : (writeResults s).info = (extract s.op (received s)).info.getD 0 := rfl
@[simp] theorem writeResults_infoV : (writeResults s).infoV = (extract s.op (received s)).info.isSome := rfl
@[simp] theorem writeResults_inputs : (writeResults s).inputs = s.inputs := rfl

/-! ## startRead (R101) -/

@[simp] theorem startRead_acc : (startRead op s).acc = Config.crcInit := rfl
@[simp] theorem startRead_phase : (startRead op s).phase = Config.phaseTx := rfl
@[simp] theorem startRead_op : (startRead op s).op = op := rfl
@[simp] theorem startRead_tidx : (startRead op s).tidx = 0#2 := rfl
@[simp] theorem startRead_ridx : (startRead op s).ridx = 0#4 := rfl
@[simp] theorem startRead_rbuf : (startRead op s).rbuf = s.rbuf := rfl
@[simp] theorem startRead_status : (startRead op s).status = Config.stNone := rfl
@[simp] theorem startRead_fault : (startRead op s).fault = s.fault := rfl
@[simp] theorem startRead_hum : (startRead op s).hum = 0#16 := rfl
@[simp] theorem startRead_humV : (startRead op s).humV = false := rfl
@[simp] theorem startRead_temp : (startRead op s).temp = 0#16 := rfl
@[simp] theorem startRead_tempV : (startRead op s).tempV = false := rfl
@[simp] theorem startRead_info : (startRead op s).info = 0#56 := rfl
@[simp] theorem startRead_infoV : (startRead op s).infoV = false := rfl
@[simp] theorem startRead_inputs : (startRead op s).inputs = s.inputs := rfl

/-! ## storeByte (R113) -/

@[simp] theorem storeByte_acc : (storeByte b s).acc = if s.ridx.toNat < crcCheckLen s.op then crcByte s.acc b else s.acc := rfl
@[simp] theorem storeByte_phase : (storeByte b s).phase = s.phase := rfl
@[simp] theorem storeByte_op : (storeByte b s).op = s.op := rfl
@[simp] theorem storeByte_tidx : (storeByte b s).tidx = s.tidx := rfl
@[simp] theorem storeByte_ridx : (storeByte b s).ridx = s.ridx + 1#4 := rfl
@[simp] theorem storeByte_rbuf : (storeByte b s).rbuf = Memory.write s.rbuf s.ridx.toNat b := rfl
@[simp] theorem storeByte_status : (storeByte b s).status = s.status := rfl
@[simp] theorem storeByte_fault : (storeByte b s).fault = s.fault := rfl
@[simp] theorem storeByte_hum : (storeByte b s).hum = s.hum := rfl
@[simp] theorem storeByte_humV : (storeByte b s).humV = s.humV := rfl
@[simp] theorem storeByte_temp : (storeByte b s).temp = s.temp := rfl
@[simp] theorem storeByte_tempV : (storeByte b s).tempV = s.tempV := rfl
@[simp] theorem storeByte_info : (storeByte b s).info = s.info := rfl
@[simp] theorem storeByte_infoV : (storeByte b s).infoV = s.infoV := rfl
@[simp] theorem storeByte_inputs : (storeByte b s).inputs = s.inputs := rfl

/-! ## resetPin (R152) -/

@[simp] theorem resetPin_acc : (resetPin s).acc = Config.crcInit := rfl
@[simp] theorem resetPin_phase : (resetPin s).phase = Config.phaseIdle := rfl
@[simp] theorem resetPin_op : (resetPin s).op = Config.opHum := rfl
@[simp] theorem resetPin_tidx : (resetPin s).tidx = 0#2 := rfl
@[simp] theorem resetPin_ridx : (resetPin s).ridx = 0#4 := rfl
@[simp] theorem resetPin_rbuf : (resetPin s).rbuf = s.rbuf := rfl
@[simp] theorem resetPin_status : (resetPin s).status = Config.stNone := rfl
@[simp] theorem resetPin_fault : (resetPin s).fault = Config.fNone := rfl
@[simp] theorem resetPin_hum : (resetPin s).hum = 0#16 := rfl
@[simp] theorem resetPin_humV : (resetPin s).humV = false := rfl
@[simp] theorem resetPin_temp : (resetPin s).temp = 0#16 := rfl
@[simp] theorem resetPin_tempV : (resetPin s).tempV = false := rfl
@[simp] theorem resetPin_info : (resetPin s).info = 0#56 := rfl
@[simp] theorem resetPin_infoV : (resetPin s).infoV = false := rfl
@[simp] theorem resetPin_inputs : (resetPin s).inputs = s.inputs := rfl

/-! ## complete (R115) -/

@[simp] theorem complete_acc : (complete s).acc = s.acc := by
  unfold complete; split <;> simp
@[simp] theorem complete_op : (complete s).op = s.op := by
  unfold complete; split <;> simp
@[simp] theorem complete_tidx : (complete s).tidx = s.tidx := by
  unfold complete; split <;> simp
@[simp] theorem complete_ridx : (complete s).ridx = s.ridx := by
  unfold complete; split <;> simp
@[simp] theorem complete_rbuf : (complete s).rbuf = s.rbuf := by
  unfold complete; split <;> simp
@[simp] theorem complete_fault : (complete s).fault = s.fault := by
  unfold complete; split <;> simp
@[simp] theorem complete_inputs : (complete s).inputs = s.inputs := by
  unfold complete; split <;> simp
@[simp] theorem complete_phase : (complete s).phase = Config.phaseIdle := by
  unfold complete; split <;> simp
@[simp] theorem complete_status : (complete s).status =
    if responseValid s.op (received s) then Config.stOk else Config.stProtocolError := by
  unfold complete; split <;> simp

/-! ## received: the buffer and `OP` alone -/

@[simp] theorem raiseFault_received : received (raiseFault c s) = received s := by
  simp [received]
@[simp] theorem clearResults_received : received (clearResults s) = received s := by
  simp [received]
@[simp] theorem finish_received : received (finish st s) = received s := by
  simp [received]
@[simp] theorem writeResults_received : received (writeResults s) = received s := by
  simp [received]
@[simp] theorem complete_received : received (complete s) = received s := by
  simp [received]

end Sys2Proof.Machine
end

