-- ==== Sys2Proof/Laws/Table.lean ====
section
/-! SUPPORT. Facts of the operation table that proofs need as arithmetic, and the byte order helpers' inverses. -/

namespace Sys2Proof.Machine

/-- There are four operations. -/
theorem op_cases (op : BitVec 2) :
    op = Config.opHum ∨ op = Config.opTemp ∨ op = Config.opBoth ∨ op = Config.opInfo := by
  revert op; decide

/-- The response sizes (R72). -/
theorem respLen_cases (op : BitVec 2) : respLen op = 6 ∨ respLen op = 8 ∨ respLen op = 11 := by
  revert op; decide

theorem respLen_pos (op : BitVec 2) : 6 ≤ respLen op := by revert op; decide

theorem respLen_le (op : BitVec 2) : respLen op ≤ 11 := by revert op; decide

/-- `RLEN = register_count + 4`, with no wrap (R76). -/
theorem respLen_eq_count (op : BitVec 2) : respLen op = (reqCount op).toNat + 4 := by
  revert op; decide

theorem crcCheckLen_add (op : BitVec 2) : crcCheckLen op + 2 = respLen op := by revert op; decide

/-! ## Byte order -/

/-- A field bit by bit: the low byte below, the high byte above. -/
theorem joinBytes_getLsbD (hi lo : Byte) (k : Nat) :
    (joinBytes hi lo).getLsbD k = if k < 8 then lo.getLsbD k else hi.getLsbD (k - 8) := by
  have h : (joinBytes hi lo).getLsbD k = _ := @BitVec.getLsbD_append 8 8 k hi lo
  rw [h]

@[simp] theorem joinBytes_hi_lo (v : Word) : joinBytes (hiByte v) (loByte v) = v := by
  refine BitVec.eq_of_getLsbD_eq fun k hk => ?_
  rw [joinBytes_getLsbD]
  split <;> rename_i h <;> simp only [hiByte, loByte, BitVec.getLsbD_extractLsb']
  · simp [h]
  · rw [show 8 + (k - 8) = k by omega]
    simp [show k - 8 < 8 by omega]

@[simp] theorem hiByte_joinBytes (hi lo : Byte) : hiByte (joinBytes hi lo) = hi := by
  refine BitVec.eq_of_getLsbD_eq fun k hk => ?_
  simp only [hiByte, BitVec.getLsbD_extractLsb', joinBytes_getLsbD, hk]
  simp

@[simp] theorem loByte_joinBytes (hi lo : Byte) : loByte (joinBytes hi lo) = lo := by
  refine BitVec.eq_of_getLsbD_eq fun k hk => ?_
  simp only [loByte, BitVec.getLsbD_extractLsb', joinBytes_getLsbD, hk]
  simp [hk]

/-- The big-endian value of a field (R77). -/
theorem joinBytes_toNat (hi lo : Byte) : (joinBytes hi lo).toNat = hi.toNat * 256 + lo.toNat := by
  have h : (joinBytes hi lo).toNat = _ := @BitVec.toNat_append 8 8 hi lo
  have h2 := Nat.two_pow_add_eq_or_of_lt (i := 8) lo.isLt hi.toNat
  rw [h, Nat.shiftLeft_eq, Nat.mul_comm, ← h2]

/-- The device info bit by bit: bit `k` is bit `k % 8` of the byte it falls in, byte `b8` lowest. -/
theorem joinInfo_getLsbD (b2 b3 b4 b5 b6 b7 b8 : Byte) (k : Nat) :
    (joinInfo b2 b3 b4 b5 b6 b7 b8).getLsbD k =
      if k < 8 then b8.getLsbD k else if k < 16 then b7.getLsbD (k - 8)
      else if k < 24 then b6.getLsbD (k - 16) else if k < 32 then b5.getLsbD (k - 24)
      else if k < 40 then b4.getLsbD (k - 32) else if k < 48 then b3.getLsbD (k - 40)
      else b2.getLsbD (k - 48) := by
  change BitVec.getLsbD (w := 8 + 8 + 8 + 8 + 8 + 8 + 8) (b2 ++ b3 ++ b4 ++ b5 ++ b6 ++ b7 ++ b8) k = _
  simp only [BitVec.getLsbD_append]
  repeat' split
  all_goals first | rfl | omega

@[simp] theorem joinInfo_infoByte (d : InfoWord) :
    joinInfo (infoByte d 0) (infoByte d 1) (infoByte d 2) (infoByte d 3) (infoByte d 4) (infoByte d 5)
      (infoByte d 6) = d := by
  refine BitVec.eq_of_getLsbD_eq fun k hk => ?_
  rw [joinInfo_getLsbD]
  simp only [infoByte, BitVec.getLsbD_extractLsb']
  repeat' split
  all_goals
    rw [Bool.and_eq_right_iff_imp.2 fun _ => decide_eq_true (by omega)]
    congr 1
    omega

/-- The seven bytes of a joined device info (R19). -/
theorem infoByte_joinInfo (b2 b3 b4 b5 b6 b7 b8 : Byte) :
    (List.range 7).map (infoByte (joinInfo b2 b3 b4 b5 b6 b7 b8)) = [b2, b3, b4, b5, b6, b7, b8] := by
  have h : ∀ (n : Nat) (b : Byte), n ≤ 6 →
      (∀ k, k < 8 → (joinInfo b2 b3 b4 b5 b6 b7 b8).getLsbD (8 * (6 - n) + k) = b.getLsbD k) →
      infoByte (joinInfo b2 b3 b4 b5 b6 b7 b8) n = b := fun n b hn hb =>
    BitVec.eq_of_getLsbD_eq fun k hk => by simp [infoByte, hk, hb k hk]
  simp only [List.range, List.range.loop, List.map, List.cons.injEq, and_true]
  refine ⟨?_, ?_, ?_, ?_, ?_, ?_, ?_⟩ <;>
  · refine h _ _ (by omega) fun k hk => ?_
    rw [joinInfo_getLsbD]
    repeat' split
    all_goals first | omega | (congr 1; omega)

end Sys2Proof.Machine
end

