-- ==== Sys2Proof/Laws/Ops.lean ====
section
/-! SUPPORT. For each shared operation one lemma that says everything it can do. -/

namespace Sys2Proof.Machine

variable {s t u : State} {p c : BitVec 2} {run f : State → Outcome} {b : Byte}

/-! ## Admission -/

theorem admitPhase_in (h : s.phase = p) : admitPhase p c run s = run s := if_pos h

theorem admitPhase_out (h : s.phase ≠ p) : admitPhase p c run s = .next (raiseFault c s) := if_neg h

/-- What an admission check can do. -/
theorem admitPhase_next (h : admitPhase p c run s = .next t) :
    (s.phase = p ∧ run s = .next t) ∨ (s.phase ≠ p ∧ t = raiseFault c s) := by
  by_cases hp : s.phase = p
  · exact .inl ⟨hp, by rwa [admitPhase_in hp] at h⟩
  · rw [admitPhase_out hp] at h
    exact .inr ⟨hp, by injection h with h; exact h.symm⟩

/-! ## The parts of the events -/

/-- What a taken request byte can do (R107). -/
theorem takeByte_next (h : takeByte s = .next t) :
    (s.tidx = 2#2 ∧ t = { s with tidx := 3#2, phase := Config.phaseRx }) ∨
    (s.tidx ≠ 2#2 ∧ s.tidx ≠ 3#2 ∧ t = { s with tidx := s.tidx + 1#2 }) := by
  unfold takeByte at h
  split at h
  · rename_i h2; injection h with h; exact .inl ⟨h2, h.symm⟩
  · split at h
    · cases h
    · rename_i h2 h3; injection h with h; exact .inr ⟨h2, h3, h.symm⟩

/-- What a received byte can do (R113). -/
theorem receiveByte_next (h : receiveByte b s = .next t) :
    s.ridx.toNat < 11 ∧
    ((s.ridx.toNat + 1 = respLen s.op ∧ t = complete (storeByte b s)) ∨
     (s.ridx.toNat + 1 ≠ respLen s.op ∧ t = storeByte b s)) := by
  unfold receiveByte at h
  split at h
  · rename_i hr
    injection h with h
    refine ⟨hr, ?_⟩
    split at h
    · rename_i h1; exact .inl ⟨h1, h.symm⟩
    · rename_i h1; exact .inr ⟨h1, h.symm⟩
  · cases h

/-- The counter of an admitted byte does not wrap (R126). -/
theorem ridx_succ (h : s.ridx.toNat < 11) : (s.ridx + 1#4).toNat = s.ridx.toNat + 1 := by
  have : s.ridx.toNat < 11 := h
  bv_omega

/-! ## Sequences of outcomes -/

/-- A sequence that goes on went on in both parts. -/
theorem andThen_next {o : Outcome} : andThen o f = .next t ↔ ∃ u, o = .next u ∧ f u = .next t := by
  cases o <;> simp [andThen]

theorem andThen_assoc {o : Outcome} {g : State → Outcome} :
    andThen (andThen o f) g = andThen o fun s => andThen (f s) g := by
  cases o <;> rfl

theorem andThen_ret {o : Outcome} : andThen o (fun s => .next s) = o := by
  cases o <;> rfl

/-- The bytes of two frames in a row. -/
theorem readBytes_append (xs ys : List Byte) (s : State) :
    readBytes (xs ++ ys) s = andThen (readBytes xs s) (readBytes ys) := by
  induction xs generalizing s with
  | nil => rfl
  | cons x xs ih =>
    simp only [List.cons_append, readBytes, andThen_assoc]
    congr 1
    exact funext ih

/-- What every T.RXBYTE keeps, the delivery of a frame keeps. -/
theorem readBytes_keeps {P : State → Prop}
    (h : ∀ b s t, P s → execTRxbyte b s = .next t → P t) {bytes : List Byte}
    (hs : P s) (hr : readBytes bytes s = .next t) : P t := by
  induction bytes generalizing s with
  | nil => injection hr with hr; exact hr ▸ hs
  | cons b rest ih =>
    obtain ⟨u, hu, hr⟩ := andThen_next.1 hr
    exact ih (h b s u hs hu) hr

/-- What a T.TXACK keeps, the taking of a request keeps. -/
theorem takeRequest_keeps {P : State → Prop}
    (h : ∀ s t, P s → execTTxack s = .next t → P t)
    (hs : P s) (hr : takeRequest s = .next t) : P t := by
  obtain ⟨v, hv, h3⟩ := andThen_next.1 hr
  obtain ⟨u, h1, h2⟩ := andThen_next.1 hv
  exact h v t (h u v (h s u hs h1) h2) h3

/-- A whole request taken from its first byte ends in phase RX (R109). -/
theorem takeRequest_whole (hp : s.phase = Config.phaseTx) (ht : s.tidx = 0#2) :
    takeRequest s = .next { s with tidx := 3#2, phase := Config.phaseRx } := by
  simp [takeRequest, execTTxack, admitTransport, admitPhase, takeByte, andThen, hp, ht]

/-- What a request frame can do (R101, R109; log 6). -/
theorem emitRequest_eq (op : BitVec 2) (s : State) :
    emitRequest op s =
      if s.phase = Config.phaseTx ∧ s.tidx = 0#2 ∧ s.op = op then
        .next { s with tidx := 3#2, phase := Config.phaseRx }
      else if s.phase = Config.phaseIdle then
        .next { startRead op s with tidx := 3#2, phase := Config.phaseRx }
      else .next (raiseFault Config.fBusy s) := by
  unfold emitRequest
  split
  · rename_i h; exact takeRequest_whole h.1 h.2.1
  · split
    · rename_i h
      rw [admitHost, admitPhase_in h]
      exact takeRequest_whole rfl rfl
    · rename_i h; rw [admitHost, admitPhase_out h]

/-- A fault recorded is kept by a later one (R136). -/
@[simp] theorem raiseFault_raiseFault (c d : BitVec 2) (s : State) (h : c ≠ Config.fNone) :
    raiseFault d (raiseFault c s) = raiseFault c s := by
  by_cases hf : s.fault = Config.fNone <;> simp [raiseFault, hf, h]

end Sys2Proof.Machine
end

