-- ==== Sys2Proof/Laws/Exec.lean ====
section
/-! SUPPORT. What each instruction can do when it answers a next state, and the reduction of the frame rows to the ten events. -/

namespace Sys2Proof.Machine

variable {s t : State} {i : Instr}

/-! ## The events: the whole of each, with its admission check -/

theorem exec_crcInit (s : State) : exec .crcInit s =
    if s.phase = Config.phaseIdle then .next { s with acc := Config.crcInit }
    else .next (raiseFault Config.fBusy s) := rfl

theorem exec_crcByte (b : Byte) (s : State) : exec (.crcByte b) s =
    if s.phase = Config.phaseIdle then .next { s with acc := crcByte s.acc b }
    else .next (raiseFault Config.fBusy s) := rfl

theorem exec_tTxack (s : State) : exec .tTxack s =
    if s.phase = Config.phaseTx then takeByte s else .next (raiseFault Config.fUnexpected s) := rfl

theorem exec_tTxerr (s : State) : exec .tTxerr s =
    if s.phase = Config.phaseTx then .next (finish Config.stTransportError s)
    else .next (raiseFault Config.fUnexpected s) := rfl

theorem exec_tRxbyte (b : Byte) (s : State) : exec (.tRxbyte b) s =
    if s.phase = Config.phaseRx then receiveByte b s
    else .next (raiseFault Config.fUnexpected s) := rfl

theorem exec_tRxerr (s : State) : exec .tRxerr s =
    if s.phase = Config.phaseRx then .next (finish Config.stTransportError s)
    else .next (raiseFault Config.fUnexpected s) := rfl

/-! ## The events: what each can do -/

theorem execCrcInit_next (h : exec .crcInit s = .next t) :
    (s.phase = Config.phaseIdle ∧ t = { s with acc := Config.crcInit }) ∨
    (s.phase ≠ Config.phaseIdle ∧ t = raiseFault Config.fBusy s) := by
  change execCrcInit s = _ at h
  unfold execCrcInit admitHost at h
  rcases admitPhase_next h with ⟨hp, h⟩ | h
  · injection h with h; exact .inl ⟨hp, h.symm⟩
  · exact .inr h

theorem execCrcByte_next {b : Byte} (h : exec (.crcByte b) s = .next t) :
    (s.phase = Config.phaseIdle ∧ t = { s with acc := crcByte s.acc b }) ∨
    (s.phase ≠ Config.phaseIdle ∧ t = raiseFault Config.fBusy s) := by
  change execCrcByte b s = _ at h
  unfold execCrcByte admitHost at h
  rcases admitPhase_next h with ⟨hp, h⟩ | h
  · injection h with h; exact .inl ⟨hp, h.symm⟩
  · exact .inr h

/-- The four RD events at once (R101): which they are and what each can do. -/
theorem exec_readEvent (op : BitVec 2) (s : State) :
    exec (readEvent op) s =
      if s.phase = Config.phaseIdle then .next (startRead op s)
      else .next (raiseFault Config.fBusy s) := by
  rcases op_cases op with rfl | rfl | rfl | rfl <;> rfl

theorem execTTxack_next (h : exec .tTxack s = .next t) :
    (s.phase = Config.phaseTx ∧ s.tidx = 2#2 ∧ t = { s with tidx := 3#2, phase := Config.phaseRx }) ∨
    (s.phase = Config.phaseTx ∧ s.tidx ≠ 2#2 ∧ s.tidx ≠ 3#2 ∧ t = { s with tidx := s.tidx + 1#2 }) ∨
    (s.phase ≠ Config.phaseTx ∧ t = raiseFault Config.fUnexpected s) := by
  rcases admitPhase_next h with ⟨hp, h⟩ | h
  · rcases takeByte_next h with h | h
    · exact .inl ⟨hp, h⟩
    · exact .inr (.inl ⟨hp, h⟩)
  · exact .inr (.inr h)

theorem execTTxerr_next (h : exec .tTxerr s = .next t) :
    (s.phase = Config.phaseTx ∧ t = finish Config.stTransportError s) ∨
    (s.phase ≠ Config.phaseTx ∧ t = raiseFault Config.fUnexpected s) := by
  change execTTxerr s = _ at h
  unfold execTTxerr admitTransport at h
  rcases admitPhase_next h with ⟨hp, h⟩ | h
  · injection h with h; exact .inl ⟨hp, h.symm⟩
  · exact .inr h

theorem execTRxbyte_next {b : Byte} (h : exec (.tRxbyte b) s = .next t) :
    (s.phase = Config.phaseRx ∧ s.ridx.toNat < 11 ∧ s.ridx.toNat + 1 = respLen s.op ∧
      t = complete (storeByte b s)) ∨
    (s.phase = Config.phaseRx ∧ s.ridx.toNat < 11 ∧ s.ridx.toNat + 1 ≠ respLen s.op ∧
      t = storeByte b s) ∨
    (s.phase ≠ Config.phaseRx ∧ t = raiseFault Config.fUnexpected s) := by
  rcases admitPhase_next h with ⟨hp, h⟩ | h
  · obtain ⟨hr, h | h⟩ := receiveByte_next h
    · exact .inl ⟨hp, hr, h⟩
    · exact .inr (.inl ⟨hp, hr, h⟩)
  · exact .inr (.inr h)

theorem execTRxerr_next (h : exec .tRxerr s = .next t) :
    (s.phase = Config.phaseRx ∧ t = finish Config.stTransportError s) ∨
    (s.phase ≠ Config.phaseRx ∧ t = raiseFault Config.fUnexpected s) := by
  change execTRxerr s = _ at h
  unfold execTRxerr admitTransport at h
  rcases admitPhase_next h with ⟨hp, h⟩ | h
  · injection h with h; exact .inl ⟨hp, h.symm⟩
  · exact .inr h

/-! ## The frame rows, in terms of the events -/

/-- An event: a host event or a transport event. -/
def isEvent (i : Instr) : Bool := isHostEvent i || isTxEvent i || isRxEvent i

@[simp] theorem isEvent_readEvent (op : BitVec 2) : isEvent (readEvent op) = true := by
  revert op; decide

/-- A response row delivers its bytes. -/
theorem exec_response (h : 2 ≤ (deliveredBytes i).length) (s : State) :
    exec i s = readBytes (deliveredBytes i) s := by
  cases i <;> first | rfl | exact absurd h (by simp [deliveredBytes])

/-- A request row emits the frame of its operation. -/
theorem exec_request {op : BitVec 2} (h : startedOp i = some op) (he : isEvent i = false) (s : State) :
    exec i s = emitRequest op s := by
  cases i <;> first | (injection he; done) | (injection h with h; subst h; rfl) | injection h

/-- A property that every event keeps, every instruction keeps: the frame rows are runs of events. -/
theorem exec_keeps {P : State → Prop}
    (h : ∀ i, isEvent i = true → ∀ s t, P s → exec i s = .next t → P t)
    (i : Instr) (hs : P s) (he : exec i s = .next t) : P t := by
  have hread : ∀ bytes : List Byte, readBytes bytes s = .next t → P t := fun bytes hr =>
    readBytes_keeps (fun b => h (.tRxbyte b) rfl) hs hr
  have hreq : ∀ op : BitVec 2, emitRequest op s = .next t → P t := fun op hr => by
    unfold emitRequest at hr
    split at hr
    · exact takeRequest_keeps (h .tTxack rfl) hs hr
    · rcases admitPhase_next hr with ⟨hp, hr⟩ | ⟨hp, rfl⟩
      · refine takeRequest_keeps (h .tTxack rfl) ?_ hr
        exact h (readEvent op) (isEvent_readEvent op) s _ hs (by rw [exec_readEvent, if_pos hp])
      · exact h (readEvent op) (isEvent_readEvent op) s _ hs (by rw [exec_readEvent, if_neg hp])
  cases i with
  | crcInit => exact h _ rfl s t hs he
  | crcByte b => exact h _ rfl s t hs he
  | rdHum => exact h _ rfl s t hs he
  | rdTemp => exact h _ rfl s t hs he
  | rdBoth => exact h _ rfl s t hs he
  | rdInfo => exact h _ rfl s t hs he
  | tTxack => exact h _ rfl s t hs he
  | tTxerr => exact h _ rfl s t hs he
  | tRxbyte b => exact h _ rfl s t hs he
  | tRxerr => exact h _ rfl s t hs he
  | reqHum => exact hreq _ he
  | reqTemp => exact hreq _ he
  | reqBoth => exact hreq _ he
  | reqInfo => exact hreq _ he
  | respHum _ _ => exact hread _ he
  | respTemp _ _ => exact hread _ he
  | respBoth _ _ _ => exact hread _ he
  | respInfo _ _ => exact hread _ he

/-! ## Refusal by the admission check (R135, R136) -/

theorem exec_host_refused (hi : isHostEvent i = true) (hp : s.phase ≠ Config.phaseIdle) :
    exec i s = .next (raiseFault Config.fBusy s) := by
  cases i <;> first
    | (simp only [exec, execCrcInit, execCrcByte, execRdHum, execRdTemp, execRdBoth, execRdInfo, admitHost]
       exact admitPhase_out hp)
    | cases hi

theorem exec_tx_refused (hi : isTxEvent i = true) (hp : s.phase ≠ Config.phaseTx) :
    exec i s = .next (raiseFault Config.fUnexpected s) := by
  cases i <;> first
    | (simp only [exec, execTTxack, execTTxerr, admitTransport]; exact admitPhase_out hp)
    | cases hi

theorem exec_rx_refused (hi : isRxEvent i = true) (hp : s.phase ≠ Config.phaseRx) :
    exec i s = .next (raiseFault Config.fUnexpected s) := by
  cases i <;> first
    | (simp only [exec, execTRxbyte, execTRxerr, admitTransport]; exact admitPhase_out hp)
    | cases hi

/-- What the ten events can do, in one list: the four RD as `startRead`, every refused event as
`raiseFault`. -/
theorem event_cases (hi : isEvent i = true) (h : exec i s = .next t) :
    (s.phase = Config.phaseIdle ∧ ((∃ b, i = .crcByte b ∧ t = { s with acc := crcByte s.acc b }) ∨
        (i = .crcInit ∧ t = { s with acc := Config.crcInit }) ∨
        (∃ op, i = readEvent op ∧ t = startRead op s))) ∨
    (s.phase = Config.phaseTx ∧ i = .tTxack ∧
      ((s.tidx = 2#2 ∧ t = { s with tidx := 3#2, phase := Config.phaseRx }) ∨
        (s.tidx ≠ 2#2 ∧ s.tidx ≠ 3#2 ∧ t = { s with tidx := s.tidx + 1#2 }))) ∨
    (s.phase = Config.phaseTx ∧ i = .tTxerr ∧ t = finish Config.stTransportError s) ∨
    (s.phase = Config.phaseRx ∧ s.ridx.toNat < 11 ∧ ∃ b, i = .tRxbyte b ∧
      ((s.ridx.toNat + 1 = respLen s.op ∧ t = complete (storeByte b s)) ∨
        (s.ridx.toNat + 1 ≠ respLen s.op ∧ t = storeByte b s))) ∨
    (s.phase = Config.phaseRx ∧ i = .tRxerr ∧ t = finish Config.stTransportError s) ∨
    ((isHostEvent i = true ∧ s.phase ≠ Config.phaseIdle ∧ t = raiseFault Config.fBusy s) ∨
      (isTxEvent i = true ∧ s.phase ≠ Config.phaseTx ∧ t = raiseFault Config.fUnexpected s) ∨
      (isRxEvent i = true ∧ s.phase ≠ Config.phaseRx ∧ t = raiseFault Config.fUnexpected s)) := by
  have hrd : ∀ op, i = readEvent op →
      (s.phase = Config.phaseIdle ∧ ∃ op, i = readEvent op ∧ t = startRead op s) ∨
      (s.phase ≠ Config.phaseIdle ∧ t = raiseFault Config.fBusy s) := fun op he => by
    rw [he, exec_readEvent] at h
    split at h
    · injection h with h; exact .inl ⟨‹_›, op, he, h.symm⟩
    · injection h with h; exact .inr ⟨‹_›, h.symm⟩
  cases i with
  | crcInit => rcases execCrcInit_next h with h | h <;> simp [h, isHostEvent]
  | crcByte b => rcases execCrcByte_next h with h | h <;> simp [h, isHostEvent]
  | rdHum => rcases hrd 0 rfl with ⟨hp, h⟩ | h <;> simp_all [isHostEvent]
  | rdTemp => rcases hrd 1 rfl with ⟨hp, h⟩ | h <;> simp_all [isHostEvent]
  | rdBoth => rcases hrd 2 rfl with ⟨hp, h⟩ | h <;> simp_all [isHostEvent]
  | rdInfo => rcases hrd 3 rfl with ⟨hp, h⟩ | h <;> simp_all [isHostEvent]
  | tTxack => rcases execTTxack_next h with h | h | h <;> simp [h, isTxEvent]
  | tTxerr => rcases execTTxerr_next h with h | h <;> simp [h, isTxEvent]
  | tRxbyte b => rcases execTRxbyte_next h with h | h | h <;> simp_all [isRxEvent]
  | tRxerr => rcases execTRxerr_next h with h | h <;> simp [h, isRxEvent]
  | reqHum => cases hi
  | reqTemp => cases hi
  | reqBoth => cases hi
  | reqInfo => cases hi
  | respHum _ _ => cases hi
  | respTemp _ _ => cases hi
  | respBoth _ _ _ => cases hi
  | respInfo _ _ => cases hi

end Sys2Proof.Machine
end

