-- ==== Sys2Proof/Laws/PerInstr.lean ====
section
/-! SUPPORT. Per instruction: the encoding space of its pattern and the pattern's size (30_encoding.md R64, R65, R70, R71). -/

namespace Sys2Proof.Laws.Pattern

/-- An event's pattern is an event word; a request row's is a request word; a response row's is a frame
of as many bytes as the operation's response has (R76). -/
def Statement : Instr → Prop
  | .respHum h crc => ∃ r, encode (.respHum h crc) = .response r ∧ r.length = Machine.respLen Config.opHum
  | .respTemp t crc => ∃ r, encode (.respTemp t crc) = .response r ∧ r.length = Machine.respLen Config.opTemp
  | .respBoth h t crc =>
    ∃ r, encode (.respBoth h t crc) = .response r ∧ r.length = Machine.respLen Config.opBoth
  | .respInfo d crc => ∃ r, encode (.respInfo d crc) = .response r ∧ r.length = Machine.respLen Config.opInfo
  | .reqHum => ∃ w, encode .reqHum = .request w
  | .reqTemp => ∃ w, encode .reqTemp = .request w
  | .reqBoth => ∃ w, encode .reqBoth = .request w
  | .reqInfo => ∃ w, encode .reqInfo = .request w
  | .crcInit => ∃ w, encode .crcInit = .event w ∧ portOf w = false
  | .crcByte b => ∃ w, encode (.crcByte b) = .event w ∧ portOf w = false
  | .rdHum => ∃ w, encode .rdHum = .event w ∧ portOf w = false
  | .rdTemp => ∃ w, encode .rdTemp = .event w ∧ portOf w = false
  | .rdBoth => ∃ w, encode .rdBoth = .event w ∧ portOf w = false
  | .rdInfo => ∃ w, encode .rdInfo = .event w ∧ portOf w = false
  | .tTxack => ∃ w, encode .tTxack = .event w ∧ portOf w = true
  | .tTxerr => ∃ w, encode .tTxerr = .event w ∧ portOf w = true
  | .tRxbyte b => ∃ w, encode (.tRxbyte b) = .event w ∧ portOf w = true
  | .tRxerr => ∃ w, encode .tRxerr = .event w ∧ portOf w = true

theorem crcInit : Statement .crcInit := ⟨_, rfl, rfl⟩
theorem crcByte (b : Byte) : Statement (.crcByte b) := ⟨_, rfl, by revert b; decide⟩
theorem rdHum : Statement .rdHum := ⟨_, rfl, rfl⟩
theorem rdTemp : Statement .rdTemp := ⟨_, rfl, rfl⟩
theorem rdBoth : Statement .rdBoth := ⟨_, rfl, rfl⟩
theorem rdInfo : Statement .rdInfo := ⟨_, rfl, rfl⟩
theorem tTxack : Statement .tTxack := ⟨_, rfl, rfl⟩
theorem tTxerr : Statement .tTxerr := ⟨_, rfl, rfl⟩
theorem tRxbyte (b : Byte) : Statement (.tRxbyte b) := ⟨_, rfl, by revert b; decide⟩
theorem tRxerr : Statement .tRxerr := ⟨_, rfl, rfl⟩
theorem reqHum : Statement .reqHum := ⟨_, rfl⟩
theorem reqTemp : Statement .reqTemp := ⟨_, rfl⟩
theorem reqBoth : Statement .reqBoth := ⟨_, rfl⟩
theorem reqInfo : Statement .reqInfo := ⟨_, rfl⟩
theorem respHum (h crc : Word) : Statement (.respHum h crc) := ⟨_, rfl, rfl⟩
theorem respTemp (t crc : Word) : Statement (.respTemp t crc) := ⟨_, rfl, rfl⟩
theorem respBoth (h t crc : Word) : Statement (.respBoth h t crc) := ⟨_, rfl, rfl⟩
theorem respInfo (d : InfoWord) (crc : Word) : Statement (.respInfo d crc) := ⟨_, rfl, rfl⟩

end Sys2Proof.Laws.Pattern
end

