-- ==== Sys2Proof/Laws/Step.lean ====
section
/-! SUPPORT. What one step can do, and the packaged inductions over steps and scripts. -/

namespace Sys2Proof.Machine

variable {s t : State}

/-- What a step can do when it answers a next state (R138): nothing presented; RESET; no event; an
instruction; an illegal event word; bytes that fit no response pattern. -/
theorem step_next (h : step s = .next t) :
    (s.inputs = [] ∧ t = s) ∨
    ∃ p rest, s.inputs = p :: rest ∧
      ((p.rst = true ∧ t = resetPin { s with inputs := rest }) ∨
       (p.rst = false ∧ p.code = none ∧ t = { s with inputs := rest }) ∨
       (∃ c i, p.rst = false ∧ p.code = some c ∧ decode s.op c = .ok i ∧
         exec i { s with inputs := rest } = .next t) ∨
       (∃ w r, p.rst = false ∧ p.code = some (.event w) ∧ decodeEvent w = .error r ∧
         t = raiseFault Config.fIllegal { s with inputs := rest }) ∨
       (∃ bytes r, p.rst = false ∧ p.code = some (.response bytes) ∧
         decodeResponse s.op bytes = .error r ∧ readBytes bytes { s with inputs := rest } = .next t)) := by
  unfold step fetch at h
  rcases hin : s.inputs with _ | ⟨p, rest⟩
  · rw [hin] at h
    simp only [Host.Outcome.next.injEq] at h
    exact .inl ⟨rfl, h.symm⟩
  · rw [hin] at h
    refine .inr ⟨p, rest, rfl, ?_⟩
    rcases hr : p.rst with _ | _
    · rcases hc : p.code with _ | c
      · simp only [hr, hc, Bool.false_eq_true, if_false, Host.Outcome.next.injEq] at h
        exact .inr (.inl ⟨rfl, rfl, h.symm⟩)
      · simp only [hr, hc, Bool.false_eq_true, if_false] at h
        rcases hd : decode s.op c with e | i
        · rw [hd] at h
          cases c with
          | event w =>
            simp only [executeRejected, Host.Outcome.next.injEq] at h
            exact .inr (.inr (.inr (.inl ⟨w, e, rfl, rfl, hd, h.symm⟩)))
          | request w => simp [executeRejected] at h
          | response bytes => exact .inr (.inr (.inr (.inr ⟨bytes, e, rfl, rfl, hd, h⟩)))
        · rw [hd] at h
          exact .inr (.inr (.inl ⟨c, i, rfl, rfl, hd, h⟩))
    · simp only [hr, if_true, Host.Outcome.next.injEq] at h
      exact .inl ⟨rfl, h.symm⟩

/-- A property that RESET, an illegal word and every event keep, and that does not depend on what is
presented later, every step keeps. -/
theorem step_keeps {P : State → Prop}
    (hin : ∀ s ins, P s → P { s with inputs := ins })
    (hreset : ∀ s, P s → P (resetPin s))
    (hillegal : ∀ s, P s → P (raiseFault Config.fIllegal s))
    (hevent : ∀ i, isEvent i = true → ∀ s t, P s → exec i s = .next t → P t)
    (hs : P s) (h : step s = .next t) : P t := by
  rcases step_next h with ⟨-, rfl⟩ | ⟨p, rest, -, h⟩
  · exact hs
  · have hu : P { s with inputs := rest } := hin s rest hs
    rcases h with ⟨-, rfl⟩ | ⟨-, -, rfl⟩ | ⟨c, i, -, -, -, h⟩ | ⟨w, r, -, -, -, rfl⟩ | ⟨bytes, r, -, -, -, h⟩
    · exact hreset _ hu
    · exact hu
    · exact exec_keeps hevent i hu h
    · exact hillegal _ hu
    · exact readBytes_keeps (fun b => hevent (.tRxbyte b) rfl) hu h

/-- What holds in every reset state and is kept by every step holds in every reachable state. -/
theorem reachable_induction {P : State → Prop}
    (h0 : ∀ m ins, Memory.wf m = true → P { State.reset with rbuf := m, inputs := ins })
    (hstep : ∀ s t, P s → step s = .next t → P t) (h : Reachable s) : P s := by
  induction h with
  | reset m ins hm => exact h0 m ins hm
  | step _ hs ih => exact hstep _ _ ih hs

/-! ## Runs -/

/-- The host's run of this machine. -/
theorem run_core (k : Nat) (s : State) : Host.Core.run Sys2Proof.core k s = runSteps k s := by
  induction k generalizing s with
  | zero => rfl
  | succ k ih =>
    have hs : Sys2Proof.core.step s = step s := rfl
    simp only [Host.Core.run, runSteps]
    rw [hs]
    cases step s with
    | next u => exact ih u
    | fault r => rfl
    | refused r => rfl

/-- A run goes on from where a shorter one ended. -/
theorem runSteps_add (j k : Nat) (s : State) :
    runSteps (j + k) s = andThen (runSteps j s) (runSteps k) := by
  induction j generalizing s with
  | zero => rw [Nat.zero_add]; rfl
  | succ j ih =>
    rw [Nat.add_right_comm, runSteps, runSteps, andThen_assoc]
    congr 1
    exact funext ih

/-! ## Scripts of events -/

/-- The decoder reads an event's own word in any state (R81). -/
theorem decode_encode_event {i : Instr} (h : isEvent i = true) (op : BitVec 2) :
    decode op (encode i) = .ok i := by
  cases i with
  | crcByte b => clear h; revert b op; decide
  | tRxbyte b => clear h; revert b op; decide
  | _ => first | rfl | cases h

/-- A step that is shown an event runs it. -/
theorem step_shown {i : Instr} (h : isEvent i = true) (s : State) (rest : List Presented) :
    step { s with inputs := shown i :: rest } = exec i { s with inputs := rest } := by
  simp [step, fetch, shown, decode_encode_event h]

end Sys2Proof.Machine
end

