-- ==== Sys2Proof/Tests/Slice0.lean ====
section
/-! SUPPORT. Tests: the well-formedness smoke tests, the decoding of words written out from the spec, one-step tests from 95_test_vectors.md, and the witnesses that the hypotheses of the obligations can be met. -/

namespace Sys2Proof.Tests

set_option maxRecDepth 10000

open Sys2Proof.Machine

/-! ## Helpers -/

/-- A field of the next state, none where the step stops. -/
def after {α : Type} (o : Outcome) (f : State → α) : Option α :=
  match o with
  | .next s => some (f s)
  | .fault _ => none
  | .refused _ => none

/-- A state in phase TX with `k` request bytes taken (41_frame_request.md R106). -/
def tx (op k : BitVec 2) : State := { State.reset with op := op, phase := 1#2, tidx := k }

/-- A state in phase RX with `bytes` received (42_frame_response.md R113). -/
def rx (op : BitVec 2) (bytes : List Byte) : State :=
  { State.reset with
    op := op
    phase := 2#2
    tidx := 3#2
    ridx := BitVec.ofNat 4 bytes.length
    acc := crc16 (bytes.take (crcCheckLen op))
    rbuf := (bytes.zipIdx).foldl (fun m c => Memory.write m c.2 c.1) [] }

/-- A state with one thing presented. -/
def showing (c : Code) (s : State) : State := { s with inputs := [⟨false, some c⟩] }

/-! ## Well-formedness: each check refuses an ill-formed frame -/

theorem test_wf_hum : (Instr.respHum 0x01C2 0xA121).wellFormed = true := by decide
theorem test_ill_hum : (Instr.respHum 0x01C3 0xA121).wellFormed = false := by decide
theorem test_wf_temp : (Instr.respTemp 0x0115 0xFF61).wellFormed = true := by decide
theorem test_ill_temp : (Instr.respTemp 0x0115 0x61FF).wellFormed = false := by decide
theorem test_wf_both : (Instr.respBoth 0x0339 0x0115 0xFEE1).wellFormed = true := by decide
theorem test_ill_both : (Instr.respBoth 0x0339 0x0115 0xFFE1).wellFormed = false := by decide
theorem test_wf_info : (Instr.respInfo 0x11223344556677 0x0733).wellFormed = true := by decide
theorem test_ill_info : (Instr.respInfo 0x11223344556677 0x0000).wellFormed = false := by decide

/-! ## Decoding: words bit by bit (30_encoding.md R65, R66, R70, R73, R74) -/

theorem test_decode_crcInit : decodeEvent 0b0001_00000000 = .ok .crcInit := by rfl
theorem test_decode_crcByte : decodeEvent 0b0010_00111001 = .ok (.crcByte 0b00111001) := by rfl
theorem test_decode_rdHum : decodeEvent 0b0011_00000000 = .ok .rdHum := by rfl
theorem test_decode_rdTemp : decodeEvent 0b0011_00000001 = .ok .rdTemp := by rfl
theorem test_decode_rdBoth : decodeEvent 0b0011_00000010 = .ok .rdBoth := by rfl
theorem test_decode_rdInfo : decodeEvent 0b0011_00000011 = .ok .rdInfo := by rfl
theorem test_decode_tTxack : decodeEvent 0b1000_00000000 = .ok .tTxack := by rfl
theorem test_decode_tTxerr : decodeEvent 0b1001_00000000 = .ok .tTxerr := by rfl
theorem test_decode_tRxbyte : decodeEvent 0b1010_11000010 = .ok (.tRxbyte 0b11000010) := by rfl
theorem test_decode_tRxerr : decodeEvent 0b1011_00000000 = .ok .tRxerr := by rfl
theorem test_decode_reqHum :
    decodeRequest 0b00000011_00000000_00000010 = .ok .reqHum := by rfl
theorem test_decode_reqTemp :
    decodeRequest 0b00000011_00000010_00000010 = .ok .reqTemp := by rfl
theorem test_decode_reqBoth :
    decodeRequest 0b00000011_00000000_00000100 = .ok .reqBoth := by rfl
theorem test_decode_reqInfo :
    decodeRequest 0b00000011_00001000_00000111 = .ok .reqInfo := by rfl
theorem test_decode_respHum :
    decodeResponse 0 [0b00000011, 0b00000010, 0b00000001, 0b11000010, 0b00100001, 0b10100001] =
      .ok (.respHum 0b00000001_11000010 0b10100001_00100001) := by rfl
theorem test_decode_respTemp :
    decodeResponse 1 [0b00000011, 0b00000010, 0b00000001, 0b00010101, 0b01100001, 0b11111111] =
      .ok (.respTemp 0b00000001_00010101 0b11111111_01100001) := by rfl
theorem test_decode_respBoth :
    decodeResponse 2 [0b00000011, 0b00000100, 0b00000011, 0b00111001, 0b00000001, 0b00010101,
        0b11100001, 0b11111110] =
      .ok (.respBoth 0b00000011_00111001 0b00000001_00010101 0b11111110_11100001) := by rfl
theorem test_decode_respInfo :
    decodeResponse 3 [0b00000011, 0b00000111, 0x11, 0x22, 0x33, 0x44, 0x55, 0x66, 0x77,
        0b00110011, 0b00000111] =
      .ok (.respInfo 0x11223344556677 0b00000111_00110011) := by rfl

/-- V-DEC.1, V-DEC.2, V-DEC.7, V-DEC.9, V-DEC.13. -/
theorem test_decode_illegal :
    [0x000, 0x101, 0x304, 0x400, 0x801, 0x9FF, 0xB01, 0xFFF].all
      (fun w : EventWord => !(decodeEvent w).isOk) = true := by decide

/-- The table's numbering of a frame: byte 0 most significant (R70, R74). -/
theorem test_table_request : decodeTableWord 24 0x030807 = some .reqInfo := by rfl
theorem test_table_response :
    decodeTableWord 64 0x030403390115E1FE = some (.respBoth 0x0339 0x0115 0xFEE1) := by rfl

/-- A fetched word runs as the first instruction after reset (V-RD.3). -/
theorem test_withFetchWord :
    after (step (State.reset.withFetchWord 16 0x302)) (fun s => (s.phase, s.op, s.inputs)) =
      some (1, 2, []) := by rfl

/-! ## One step each (95_test_vectors.md) -/

/-- R93's example. -/
theorem test_crcInit : after (exec .crcInit { State.reset with acc := 0x1234 }) State.acc = some 0xFFFF := by
  rfl
/-- V-CE.5. -/
theorem test_crcInit_busy :
    after (exec .crcInit (rx 0 [0x03])) (fun s => (s.acc, s.fault)) = some (0x41FF, 2) := by decide
/-- V-CE.2. -/
theorem test_crcByte : after (exec (.crcByte 0x03) State.reset) State.acc = some 0x41FF := by decide
/-- V-CE.3. -/
theorem test_crcByte_leftover :
    after (exec (.crcByte 0x31) { State.reset with acc := 0xA121 }) State.acc = some 0xCCA0 := by decide
/-- V-RD.1. -/
theorem test_rdHum :
    after (exec .rdHum State.reset) (fun s => (s.phase, s.op, s.tidx, txByte s)) = some (1, 0, 0, 0x03) := by
  rfl
/-- V-RD.5. -/
theorem test_rdTemp :
    after (exec .rdTemp { State.reset with status := 1, hum := 0x01C2, humV := true, acc := 0xA121,
                                           tidx := 3, ridx := 6 })
      (fun s => (s.op, s.status, s.hum, s.humV, s.acc, s.ridx)) = some (1, 0, 0, false, 0xFFFF, 0) := by rfl
/-- V-RD.6. -/
theorem test_rdBoth_busy :
    after (exec .rdBoth (tx 0 0)) (fun s => (s.op, s.phase, s.fault)) = some (0, 1, 2) := by rfl
/-- V-RD.4. -/
theorem test_rdInfo : after (exec .rdInfo State.reset) (fun s => (s.phase, s.op)) = some (1, 3) := by rfl
/-- V-TX.4. -/
theorem test_tTxack_last :
    after (exec .tTxack (tx 3 2)) (fun s => (s.phase, s.tidx, rxLen s, txByte s)) = some (2, 3, 11, 0) := by rfl
/-- V-TX.8. -/
theorem test_tTxack_idle : after (exec .tTxack State.reset) State.fault = some 3 := by rfl
/-- V-TX.6. -/
theorem test_tTxerr :
    after (exec .tTxerr (tx 2 2)) (fun s => (s.phase, s.status, s.op, s.tidx)) = some (0, 3, 2, 2) := by rfl
/-- V-FLT.7. -/
theorem test_tTxerr_in_rx : after (exec .tTxerr (rx 0 [])) (fun s => (s.phase, s.fault)) = some (2, 3) := by
  decide
/-- P2, step 9: a CRC byte is stored, not absorbed. -/
theorem test_tRxbyte_crc :
    after (exec (.tRxbyte 0x21) (rx 0 [0x03, 0x02, 0x01, 0xC2]))
      (fun s => (s.acc, s.ridx, Memory.read s.rbuf 4, s.phase)) = some (0xA121, 5, 0x21, 2) := by decide
/-- V-RX.8: only the last byte is wrong, and neither field is delivered. -/
theorem test_tRxbyte_last :
    after (exec (.tRxbyte 0xFF) (rx 2 [0x03, 0x04, 0x03, 0x39, 0x01, 0x15, 0xE1]))
      (fun s => (s.phase, s.status, s.humV, s.tempV)) = some (0, 2, false, false) := by decide
/-- V-RX.18. -/
theorem test_tRxerr :
    after (exec .tRxerr (rx 0 [0x03, 0x02])) (fun s => (s.phase, s.status, s.ridx, s.acc)) =
      some (0, 3, 2, 0x8180) := by decide
/-- V-FLT.6. -/
theorem test_tRxerr_in_tx :
    after (exec .tRxerr (tx 0 0)) (fun s => (s.phase, s.status, s.fault)) = some (1, 0, 3) := by rfl
/-- V-TX.1 (log 6). -/
theorem test_reqHum : after (exec .reqHum State.reset) (fun s => (s.phase, s.op, rxLen s)) = some (2, 0, 6) := by
  rfl
/-- V-TX.2, the frame on offer already (log 6). -/
theorem test_reqTemp :
    after (exec .reqTemp (tx 1 0)) (fun s => (s.phase, s.tidx, s.fault)) = some (2, 3, 0) := by rfl
/-- V-TX.3 (log 6). -/
theorem test_reqBoth :
    after (exec .reqBoth State.reset) (fun s => (s.phase, s.op, rxLen s)) = some (2, 2, 8) := by rfl
/-- R101 in phase RX (log 6). -/
theorem test_reqInfo_busy : after (exec .reqInfo (rx 0 [])) (fun s => (s.op, s.fault)) = some (0, 2) := by
  decide
/-- V-RX.1. -/
theorem test_respHum :
    after (exec (.respHum 0x01C2 0xA121) (rx 0 [])) (fun s => (s.status, s.hum, s.humV, s.acc)) =
      some (1, 0x01C2, true, 0xA121) := by decide
/-- V-RX.9. -/
theorem test_respTemp :
    after (exec (.respTemp 0x8065 0x4B00) (rx 1 [])) (fun s => (s.status, s.temp, s.tempV)) =
      some (1, 0x8065, true) := by decide
/-- V-RX.16. -/
theorem test_respBoth :
    after (exec (.respBoth 0x0300 0xC107 0xFEE1) (rx 2 [])) (fun s => (s.status, s.hum, s.temp)) =
      some (1, 0x0300, 0xC107) := by decide
/-- V-RX.15. -/
theorem test_respInfo :
    after (exec (.respInfo 0x11223344556677 0x0733) (rx 3 [])) (fun s => (s.status, s.info, s.infoV)) =
      some (1, 0x11223344556677, true) := by decide
/-- V-RST.4. -/
theorem test_reset_ignores_word :
    after (step { rx 2 [0x03, 0x04, 0x03] with fault := 2, inputs := [⟨true, some (.event 0x000)⟩] })
      (fun s => (s.phase, s.acc, s.ridx, s.fault, Memory.read s.rbuf 2)) = some (0, 0xFFFF, 0, 0, 0x03) := by
  decide

/-! ## Witnesses: a state and operands that meet all the hypotheses of each statement that has some -/

theorem inv_reset : State.reset.Inv := by constructor <;> decide
theorem inv_tx : (tx 3 0).Inv := by constructor <;> decide
theorem inv_tx_last : (tx 1 2).Inv := by constructor <;> decide
theorem inv_rx_first : (rx 1 []).Inv := by constructor <;> decide
/-- One byte short of the longest response. -/
theorem inv_rx_last :
    (rx 3 [0x03, 0x07, 0x11, 0x22, 0x33, 0x44, 0x55, 0x66, 0x77, 0x33]).Inv := by
  constructor <;> decide

/-- Bit 0 set and bit 0 clear. -/
theorem witness_CrcShiftBitByBit :
    (0xFFFF#16).getLsbD 0 = true ∧ (0xFFFE#16).getLsbD 0 = false := by decide

theorem witness_HostCrcProcedure : State.reset.phase = 0#2 := rfl

theorem witness_DecodeEncodeAgree :
    (Instr.respTemp 0x0115 0xFF61).readUnder 1 = true ∧ (Instr.respHum 0x01C2 0xA121).readUnder 0 = true ∧
    (Instr.tRxbyte 0xFF).readUnder 3 = true := by decide

theorem witness_DecodedPatternIsTheRows :
    decode 0 (.event 0x2FF) = .ok (.crcByte 0xFF) ∧ decode 2 (.request 0x030807) = .ok .reqInfo ∧
    decode 1 (.response [0x03, 0x02, 0x01, 0x15, 0x61, 0xFF]) = .ok (.respTemp 0x0115 0xFF61) := ⟨rfl, rfl, rfl⟩

theorem witness_IllegalEventWords :
    (showing (.event 0xFFF) State.reset).inputs = ⟨false, some (.event 0xFFF)⟩ :: [] ∧
    decodeEvent 0xFFF = .error .unassignedOpcode := ⟨rfl, rfl⟩

theorem witness_RequestFrames : decodeRequest 0x030202 = .ok .reqTemp := rfl

theorem witness_RequestedRegisters : 0x0E ∈ requestedRegisters 3 ∧ 0x03 ∈ requestedRegisters 2 := by decide

theorem witness_StepRunsDecodedInstruction :
    (showing (.event 0x300) State.reset).inputs = ⟨false, some (.event 0x300)⟩ :: [] ∧
    decode (showing (.event 0x300) State.reset).op (.event 0x300) = .ok .rdHum := ⟨rfl, rfl⟩

/-- Each of the three clauses. -/
theorem witness_StepWithoutEvent :
    { rx 1 [] with inputs := [⟨true, some (.event 0x000)⟩] }.inputs = ⟨true, some (.event 0x000)⟩ :: [] ∧
    { tx 1 2 with inputs := [⟨false, none⟩] }.inputs = ⟨false, none⟩ :: [] ∧ State.reset.inputs = [] :=
  ⟨rfl, rfl, rfl⟩

theorem witness_ResetWritesEveryRegister :
    { rx 1 [] with inputs := [⟨true, some (.event 0x900)⟩] }.inputs = ⟨true, some (.event 0x900)⟩ :: [] ∧
    isTxEvent .tTxerr = true := ⟨rfl, rfl⟩

/-- Each refused kind, each admitted kind, and an illegal word. -/
theorem witness_AdmissionTable :
    (isHostEvent .crcInit = true ∧ (tx 3 0).phase ≠ 0#2) ∧
    (isTxEvent .tTxack = true ∧ State.reset.phase ≠ 1#2) ∧
    (isRxEvent .tRxerr = true ∧ (tx 3 0).phase ≠ 2#2) ∧
    (State.reset.Inv ∧ isHostEvent .rdBoth = true ∧ State.reset.phase = 0#2) ∧
    ((tx 1 2).Inv ∧ isTxEvent .tTxack = true ∧ (tx 1 2).phase = 1#2) ∧
    ((rx 1 []).Inv ∧ isRxEvent (.tRxbyte 0x03) = true ∧ (rx 1 []).phase = 2#2) ∧
    decodeEvent 0x304 = .error .selectorOutOfRange :=
  ⟨by decide, by decide, by decide, ⟨inv_reset, rfl, rfl⟩, ⟨inv_tx_last, rfl, rfl⟩, ⟨inv_rx_first, rfl, rfl⟩, rfl⟩

/-- Both outcomes of the last clause: a step that goes on, and one that shows what no block can send. -/
theorem witness_NothingStopsTheBlock :
    (tx 3 0).Inv ∧ (∃ t, step (tx 3 0) = .next t) ∧
    (showing (.request 0x030001) State.reset).Inv ∧
    step (showing (.request 0x030001) State.reset) = .refused .requestNeverEmitted :=
  ⟨inv_tx, ⟨_, rfl⟩, by constructor <;> decide, rfl⟩

theorem witness_StopsOfTheModel :
    ({ rx 1 [] with ridx := 11#4 }.phase = 2#2 ∧ 11 ≤ { rx 1 [] with ridx := 11#4 }.ridx.toNat) ∧
    ((tx 0 3).phase = 1#2 ∧ (tx 0 3).tidx = 3#2) ∧
    ((showing (.request 0xFFFFFF) State.reset).inputs = ⟨false, some (.request 0xFFFFFF)⟩ :: [] ∧
      (0xFFFFFF : RequestWord) ∉ [0x030002, 0x030202, 0x030004, 0x030807]) := by decide

theorem witness_CrcInitLoadsAccumulator :
    State.reset.phase = 0#2 ∧ (tx 3 0).phase ≠ 0#2 ∧ (0x01 : Byte) ≠ 0 ∧
    (showing (.event 0x101) State.reset).inputs = ⟨false, some (.event (0x1#4 ++ 0x01#8))⟩ :: [] := by
  decide

theorem witness_CrcByteAbsorbsByte : State.reset.phase = 0#2 ∧ (rx 1 []).phase ≠ 0#2 := by decide

theorem witness_ReadEventsStartTransaction :
    State.reset.phase = 0#2 ∧ (tx 3 0).phase ≠ 0#2 ∧ 3 < (0x04 : Byte).toNat ∧
    (showing (.event 0x304) (tx 3 0)).inputs = ⟨false, some (.event (0x3#4 ++ 0x04#8))⟩ :: [] := by decide

theorem witness_TxackTakesOfferedByte :
    ((tx 1 2).phase = 1#2 ∧ (tx 1 2).tidx = 2#2) ∧ ((tx 3 0).phase = 1#2 ∧ (tx 3 0).tidx = 0#2) ∧
    ((tx 2 1).phase = 1#2 ∧ (tx 2 1).tidx = 1#2) ∧ State.reset.phase ≠ 1#2 := by decide

theorem witness_TransportErrorsEndTransaction :
    (tx 1 2).phase = 1#2 ∧ (rx 1 []).phase = 2#2 ∧ (rx 1 []).phase ≠ 1#2 ∧ (tx 1 2).phase ≠ 2#2 := by decide

/-- The first byte, the last byte of the longest response, and another phase. -/
theorem witness_RxbyteStoresByte :
    (Memory.wf (rx 1 []).rbuf = true ∧ (rx 1 []).phase = 2#2 ∧ (rx 1 []).ridx.toNat < respLen (rx 1 []).op) ∧
    ((rx 3 [0x03, 0x07, 0x11, 0x22, 0x33, 0x44, 0x55, 0x66, 0x77, 0x33]).phase = 2#2 ∧
      (rx 3 [0x03, 0x07, 0x11, 0x22, 0x33, 0x44, 0x55, 0x66, 0x77, 0x33]).ridx.toNat < respLen 3) ∧
    State.reset.phase ≠ 2#2 := by decide

/-- A last byte that makes the response valid, and one that does not. -/
theorem witness_LastByteCompletesTransaction :
    Memory.wf (rx 0 [0x03, 0x02, 0x01, 0xC2, 0x21]).rbuf = true ∧
    (rx 0 [0x03, 0x02, 0x01, 0xC2, 0x21]).ridx.toNat + 1 = respLen 0 ∧
    responseValid 0 (memBytes (rx 0 [0x03, 0x02, 0x01, 0xC2, 0x21]).rbuf 0 5 ++ [0xA1]) = true ∧
    responseValid 0 (memBytes (rx 0 [0x03, 0x02, 0x01, 0xC2, 0x21]).rbuf 0 5 ++ [0xA0]) = false := by
  decide

theorem witness_VerdictComparesWithAccumulator :
    (rx 3 [0x03, 0x07, 0x11, 0x22, 0x33, 0x44, 0x55, 0x66, 0x77, 0x33]).Inv ∧
    (rx 3 [0x03, 0x07, 0x11, 0x22, 0x33, 0x44, 0x55, 0x66, 0x77, 0x33]).phase = 2#2 ∧
    (rx 3 [0x03, 0x07, 0x11, 0x22, 0x33, 0x44, 0x55, 0x66, 0x77, 0x33]).ridx.toNat + 1 = respLen 3 :=
  ⟨inv_rx_last, rfl, by decide⟩

theorem witness_ResponseValidIsFourEqualities :
    [0x03, 0x04, 0x03, 0x39, 0x01, 0x15, 0xE1, 0xFE].length = (reqCount 2).toNat + 4 := by decide

theorem witness_OfferedRequestByte :
    State.reset.phase ≠ 1#2 ∧ (tx 1 2).phase = 1#2 ∧ (tx 1 2).tidx ≠ 3#2 ∧ (tx 3 0).tidx = 0#2 ∧
    isHostEvent .crcInit = true ∧ (∃ t, exec .crcInit (tx 1 2) = .next t) :=
  ⟨by decide, by decide, by decide, by decide, rfl, ⟨_, rfl⟩⟩

theorem witness_WriteAsAWhole : State.reset.phase = 0#2 ∧ 2 < 3 := by decide

theorem witness_RequestFramesGoOut :
    State.reset.phase = 0#2 ∧ ((tx 3 0).phase = 1#2 ∧ (tx 3 0).tidx = 0#2 ∧ (tx 3 0).op = 3#2) ∧
    ((tx 1 2).phase ≠ 0#2 ∧ ¬((tx 1 2).phase = 1#2 ∧ (tx 1 2).tidx = 0#2 ∧ (tx 1 2).op = 1#2)) := by decide

theorem witness_ResponseFramesComplete :
    ((rx 0 []).Inv ∧ (rx 0 []).phase = 2#2 ∧ (rx 0 []).ridx = 0#4 ∧ (rx 0 []).op = 0#2) ∧
    ((rx 1 []).Inv ∧ (rx 1 []).phase = 2#2 ∧ (rx 1 []).ridx = 0#4 ∧ (rx 1 []).op = 1#2) ∧
    ((rx 2 []).Inv ∧ (rx 2 []).phase = 2#2 ∧ (rx 2 []).ridx = 0#4 ∧ (rx 2 []).op = 2#2) ∧
    ((rx 3 []).Inv ∧ (rx 3 []).phase = 2#2 ∧ (rx 3 []).ridx = 0#4 ∧ (rx 3 []).op = 3#2) ∧
    (2 ≤ (deliveredBytes (.respHum 0 0)).length ∧ State.reset.phase ≠ 2#2) := by
  refine ⟨⟨?_, by decide⟩, ⟨inv_rx_first, by decide⟩, ⟨?_, by decide⟩, ⟨?_, by decide⟩, by decide⟩
  all_goals constructor <;> decide

theorem witness_TransactionRefinesCodec :
    State.reset.Inv ∧ State.reset.phase = 0#2 ∧
    [0x03, 0x02, 0x01, 0x15, 0x61, 0xFF].length = (reqCount 1).toNat + 4 ∧
    responseValid 1 [0x03, 0x02, 0x01, 0x15, 0x61, 0xFF] = true ∧
    responseValid 1 [0x03, 0x02, 0x01, 0x15, 0xFF, 0x61] = false :=
  ⟨inv_reset, by decide⟩

/-- An error at the third request byte, and one after all response bytes but one. -/
theorem witness_TransactionEndsOnTransportError :
    State.reset.Inv ∧ State.reset.phase = 0#2 ∧
    (∃ k, k < 3 ∧ requestScript 2 2 ++ [shown .tTxerr] = requestScript 2 k ++ [shown .tTxerr]) ∧
    (∃ r : List Byte, r.length < (reqCount 1).toNat + 4 ∧
      transactionScript 1 [0x03, 0x02, 0x01, 0x15, 0x61] ++ [shown .tRxerr] =
        transactionScript 1 r ++ [shown .tRxerr]) :=
  ⟨inv_reset, rfl, ⟨2, by decide, rfl⟩, ⟨[0x03, 0x02, 0x01, 0x15, 0x61], by decide, rfl⟩⟩

/-- V-RX.5, and V-RX.4: data byte 3 of V-RX.1 changed from C2 to C3. -/
theorem witness_CorruptionRejected :
    byteAt [0x04, 0x02, 0x01, 0xC2, 0x20, 0xD5] 0 ≠ 0x03 ∧
    [0x03, 0x02, 0x01, 0xC2, 0x21, 0xA1].length = (reqCount 0).toNat + 4 ∧
    responseValid 0 [0x03, 0x02, 0x01, 0xC2, 0x21, 0xA1] = true ∧ 2 ≤ 3 ∧
    3 < [0x03, 0x02, 0x01, 0xC2, 0x21, 0xA1].length - 2 ∧
    (0xC3 : Byte) ≠ byteAt [0x03, 0x02, 0x01, 0xC2, 0x21, 0xA1] 3 := by decide

theorem witness_SourceExamples : State.reset.Inv ∧ State.reset.phase = 0#2 := ⟨inv_reset, rfl⟩

theorem witness_SharedAccumulatorHazard :
    State.reset.phase = 0#2 ∧ State.reset.Inv ∧
    [0x03, 0x02, 0x01, 0xC2, 0x21, 0xA1].length = (reqCount 0).toNat + 4 := ⟨rfl, inv_reset, by decide⟩

theorem witness_InvariantKeptByEveryStep :
    (rx 1 []).Inv ∧ ∃ t, step (rx 1 []) = .next t := ⟨inv_rx_first, ⟨_, rfl⟩⟩

theorem witness_ResetMeetsInvariant : Memory.wf (rx 0 [0x03, 0x02]).rbuf = true := by decide

theorem witness_NoPartialResult :
    (State.reset.Inv ∧ State.reset.ResultsBacked ∧ ∃ t, step State.reset = .next t) ∧
    ((tx 2 1).op = 2#2 ∧ (tx 2 1).status ≠ 1#2) :=
  ⟨⟨inv_reset, ⟨by decide, by decide, by decide⟩, ⟨_, rfl⟩⟩, by decide⟩

/-- An event that is admitted, an illegal word, and an event out of its phase, with a fault recorded. -/
theorem witness_FirstFaultSticks :
    { State.reset with fault := 3#2, inputs := [⟨false, some (.event 0x100)⟩] }.fault ≠ 0#2 ∧
    (∃ t, step { State.reset with fault := 3#2, inputs := [⟨false, some (.event 0x100)⟩] } = .next t) ∧
    decodeEvent 0x101 = .error .nonzeroOperand ∧
    (decodeEvent 0x800 = .ok .tTxack ∧ isTxEvent .tTxack = true ∧ State.reset.phase ≠ 1#2) :=
  ⟨by decide, ⟨_, rfl⟩, rfl, rfl, rfl, by decide⟩

theorem witness_PhaseGraph :
    (isHostEvent .rdHum = true ∧ ∃ t, exec .rdHum State.reset = .next t) ∧
    { rx 1 [] with inputs := [⟨true, none⟩] }.inputs = ⟨true, none⟩ :: [] := ⟨⟨rfl, ⟨_, rfl⟩⟩, rfl⟩

/-- Each premise of the clauses: no writer of `ACC`, none of `OP`, none of `TIDX`, none of `RIDX`. -/
theorem witness_RegistersHaveTheirWriters :
    (∃ t, exec .tTxerr (tx 1 2) = .next t) ∧ startedOp .tTxerr = none ∧ deliveredBytes .tTxerr = [] ∧
    (∃ t, exec .tTxack (tx 1 2) = .next t) ∧ (∃ t, exec (.crcByte 0xFF) State.reset = .next t) :=
  ⟨⟨_, rfl⟩, rfl, rfl, ⟨_, rfl⟩, ⟨_, rfl⟩⟩

theorem witness_BufferWrittenOnlyAtRidx :
    (∃ t, exec (.tRxbyte 0x03) (rx 1 []) = .next t) ∧
    (rx 1 []).ridx.toNat + (deliveredBytes (.tRxbyte 0x03)).length ≤ 1 ∧
    (∃ t, exec .crcInit State.reset = .next t) ∧ State.reset.phase ≠ 2#2 :=
  ⟨⟨_, rfl⟩, by decide, ⟨_, rfl⟩, by decide⟩

/-- In phase RX with nothing stored yet, another buffer altogether. -/
theorem witness_StaleBufferUnobservable :
    (rx 1 []).Inv ∧ Memory.wf [(0, 0xFF), (10, 0x01)] = true ∧
    (∀ a, a < (rx 1 []).ridx.toNat → Memory.read [(0, 0xFF), (10, 0x01)] a = Memory.read (rx 1 []).rbuf a) ∧
    ∃ t, step (rx 1 []) = .next t :=
  ⟨inv_rx_first, by decide, fun _ h => absurd h (Nat.not_lt_zero _), ⟨_, rfl⟩⟩

/-- A host event, an illegal word, no event, and a transport event of the other phase. -/
theorem witness_HangUntilTransportAnswers :
    (tx 3 0).Inv ∧ (tx 3 0).phase = 1#2 ∧
    ∀ p ∈ [shown .rdHum, ⟨false, some (.event 0x000)⟩, ⟨false, none⟩, shown .tRxerr],
      p.rst = false ∧ ∀ c, p.code = some c → ∃ w, c = .event w ∧
        ∀ i, decodeEvent w = .ok i →
          ¬(isTxEvent i = true ∧ (tx 3 0).phase = 1#2) ∧ ¬(isRxEvent i = true ∧ (tx 3 0).phase = 2#2) := by
  refine ⟨inv_tx, rfl, fun p hp => ?_⟩
  simp only [List.mem_cons, List.not_mem_nil, or_false] at hp
  rcases hp with rfl | rfl | rfl | rfl
  · refine ⟨rfl, fun c hc => ⟨0x300, (by injection hc with hc; exact hc.symm), fun i hi => ?_⟩⟩
    injection hi with hi; subst hi; decide
  · refine ⟨rfl, fun c hc => ⟨0x000, (by injection hc with hc; exact hc.symm), fun i hi => ?_⟩⟩
    cases hi
  · exact ⟨rfl, fun c hc => by cases hc⟩
  · refine ⟨rfl, fun c hc => ⟨0xB00, (by injection hc with hc; exact hc.symm), fun i hi => ?_⟩⟩
    injection hi with hi; subst hi; decide

end Sys2Proof.Tests
end

/-! PROOFS. The state (10_state.md R15 to R36): what each kind of instruction can do, the invariants, the
writers of `RBUF` and of the registers, stale bytes of `RBUF`, and the output ports. -/

namespace Sys2Proof.Machine

variable {s t : State} {i : Instr} {op c : BitVec 2} {b : Byte} {m : Memory}

/-! ## What every instruction can do: start a read, deliver bytes, or neither -/

theorem eq_readEvent (hs : startedOp i = some op) (hev : isEvent i = true) : i = readEvent op := by
  cases i with
  | rdHum | rdTemp | rdBoth | rdInfo => cases hs; rfl
  | reqHum | reqTemp | reqBoth | reqInfo => cases hev
  | _ => cases hs

/-- A read row, an RD event or a request frame (R101, R109; log 6). -/
theorem exec_started_cases (hs : startedOp i = some op) (h : exec i s = .next t) :
    (s.phase = Config.phaseIdle ∧
      (t = startRead op s ∨ t = { startRead op s with tidx := 3#2, phase := Config.phaseRx })) ∨
    (s.phase = Config.phaseTx ∧ t = { s with tidx := 3#2, phase := Config.phaseRx }) ∨
    (s.phase ≠ Config.phaseIdle ∧ t = raiseFault Config.fBusy s) := by
  rcases hev : isEvent i with _ | _
  · rw [exec_request hs hev, emitRequest_eq] at h
    split at h
    · rename_i htx
      cases h
      exact .inr (.inl ⟨htx.1, rfl⟩)
    · split at h
      · cases h
        exact .inl ⟨‹_›, .inr rfl⟩
      · cases h
        exact .inr (.inr ⟨‹_›, rfl⟩)
  · rw [eq_readEvent hs hev, exec_readEvent] at h
    split at h
    · cases h
      exact .inl ⟨‹_›, .inl rfl⟩
    · cases h
      exact .inr (.inr ⟨‹_›, rfl⟩)

/-- A row that delivers bytes is the delivery of them one by one (R84; log 7). -/
theorem exec_delivers (hd : deliveredBytes i ≠ []) (s : State) :
    exec i s = readBytes (deliveredBytes i) s := by
  cases i with
  | tRxbyte b => exact andThen_ret.symm
  | respHum | respTemp | respBoth | respInfo => rfl
  | _ => exact absurd rfl hd

/-- An instruction that neither starts a read nor delivers a byte: CRC.INIT, CRC.BYTE, T.TXACK, T.TXERR
and T.RXERR. -/
theorem exec_quiet_cases (hs : startedOp i = none) (hd : deliveredBytes i = [])
    (h : exec i s = .next t) :
    ((i = .crcInit ∨ ∃ b, i = .crcByte b) ∧ ∃ a, t = { s with acc := a }) ∨
    (i = .tTxack ∧ s.phase = Config.phaseTx ∧ ∃ k q, t = { s with tidx := k, phase := q }) ∨
    ((i = .tTxerr ∨ i = .tRxerr) ∧ t = finish Config.stTransportError s) ∨
    ∃ c, t = raiseFault c s := by
  cases i with
  | crcInit =>
    rcases execCrcInit_next h with ⟨-, rfl⟩ | ⟨-, rfl⟩
    · exact .inl ⟨.inl rfl, _, rfl⟩
    · exact .inr (.inr (.inr ⟨_, rfl⟩))
  | crcByte b =>
    rcases execCrcByte_next h with ⟨-, rfl⟩ | ⟨-, rfl⟩
    · exact .inl ⟨.inr ⟨b, rfl⟩, _, rfl⟩
    · exact .inr (.inr (.inr ⟨_, rfl⟩))
  | tTxack =>
    rcases execTTxack_next h with ⟨hp, -, rfl⟩ | ⟨hp, -, -, rfl⟩ | ⟨-, rfl⟩
    · exact .inr (.inl ⟨rfl, hp, _, _, rfl⟩)
    · exact .inr (.inl ⟨rfl, hp, _, s.phase, rfl⟩)
    · exact .inr (.inr (.inr ⟨_, rfl⟩))
  | tTxerr =>
    rcases execTTxerr_next h with ⟨-, rfl⟩ | ⟨-, rfl⟩
    · exact .inr (.inr (.inl ⟨.inl rfl, rfl⟩))
    · exact .inr (.inr (.inr ⟨_, rfl⟩))
  | tRxerr =>
    rcases execTRxerr_next h with ⟨-, rfl⟩ | ⟨-, rfl⟩
    · exact .inr (.inr (.inl ⟨.inr rfl, rfl⟩))
    · exact .inr (.inr (.inr ⟨_, rfl⟩))
  | tRxbyte | respHum | respTemp | respBoth | respInfo => cases hd
  | _ => cases hs

/-! ## The outcomes that have one answer, as equations -/

theorem exec_tRxbyte_last (hp : s.phase = Config.phaseRx) (hr : s.ridx.toNat < 11)
    (hlast : s.ridx.toNat + 1 = respLen s.op) (b : Byte) :
    exec (.tRxbyte b) s = .next (complete (storeByte b s)) := by
  rw [exec_tRxbyte, if_pos hp, receiveByte, if_pos hr, if_pos hlast]

theorem exec_tRxbyte_more (hp : s.phase = Config.phaseRx) (hr : s.ridx.toNat < 11)
    (hlast : s.ridx.toNat + 1 ≠ respLen s.op) (b : Byte) :
    exec (.tRxbyte b) s = .next (storeByte b s) := by
  rw [exec_tRxbyte, if_pos hp, receiveByte, if_pos hr, if_neg hlast]

theorem exec_tRxbyte_refused (hp : s.phase ≠ Config.phaseRx) (b : Byte) :
    exec (.tRxbyte b) s = .next (raiseFault Config.fUnexpected s) :=
  exec_rx_refused rfl hp

section Presented

variable {q : Presented} {rest : List Presented} {code : Code}

theorem step_nothing (hin : s.inputs = []) : step s = .next s := by
  simp [step, fetch, hin]

theorem step_rst (hin : s.inputs = q :: rest) (hr : q.rst = true) :
    step s = .next (resetPin { s with inputs := rest }) := by
  simp [step, fetch, hin, hr]

theorem step_noEvent (hin : s.inputs = q :: rest) (hr : q.rst = false) (hc : q.code = none) :
    step s = .next { s with inputs := rest } := by
  simp [step, fetch, hin, hr, hc]

theorem step_decoded (hin : s.inputs = q :: rest) (hr : q.rst = false) (hc : q.code = some code)
    (hd : decode s.op code = .ok i) : step s = exec i { s with inputs := rest } := by
  simp [step, fetch, hin, hr, hc, hd]

theorem step_rejected {r : Reject} (hin : s.inputs = q :: rest) (hr : q.rst = false)
    (hc : q.code = some code) (hd : decode s.op code = .error r) :
    step s = executeRejected code { s with inputs := rest } := by
  simp [step, fetch, hin, hr, hc, hd]

end Presented

/-! ## The invariants of R36, one lemma per operation on the state -/

/-- The invariants do not speak of `FAULT`. -/
theorem State.Inv.raiseFault (h : s.Inv) (c : BitVec 2) : (raiseFault c s).Inv :=
  ⟨h.memory, h.phase_legal, h.in_tx, h.in_rx, h.busy_clear, h.not_ok_clear, h.ok_result,
    h.protocol_error, h.ridx_le⟩

/-- The invariants do not speak of what is presented later. -/
theorem State.Inv.withInputs (h : s.Inv) (ins : List Presented) : { s with inputs := ins }.Inv :=
  ⟨h.memory, h.phase_legal, h.in_tx, h.in_rx, h.busy_clear, h.not_ok_clear, h.ok_result,
    h.protocol_error, h.ridx_le⟩

/-- In IDLE the host may load `ACC` with any value (R93, R94). -/
theorem State.Inv.withAcc (h : s.Inv) (hp : s.phase = Config.phaseIdle) (a : Word) :
    { s with acc := a }.Inv where
  memory := h.memory
  phase_legal := h.phase_legal
  in_tx htx := absurd (hp.symm.trans htx) (by decide)
  in_rx hrx := absurd (hp.symm.trans hrx) (by decide)
  busy_clear := h.busy_clear
  not_ok_clear := h.not_ok_clear
  ok_result := h.ok_result
  protocol_error := h.protocol_error
  ridx_le := h.ridx_le

theorem resultsClear_clearResults (s : State) : ResultsClear (clearResults s) :=
  ⟨rfl, rfl, rfl, rfl, rfl, rfl⟩

theorem resetPin_inv (h : Memory.wf s.rbuf = true) : (resetPin s).Inv where
  memory := h
  phase_legal := by simp
  in_tx htx := absurd htx (by simp)
  in_rx hrx := absurd hrx (by simp)
  busy_clear hb := absurd rfl hb
  not_ok_clear _ := ⟨rfl, rfl, rfl, rfl, rfl, rfl⟩
  ok_result hok := absurd hok (by simp)
  protocol_error hpe := absurd hpe (by simp)
  ridx_le := by simp

theorem startRead_inv (h : Memory.wf s.rbuf = true) (op : BitVec 2) : (startRead op s).Inv where
  memory := h
  phase_legal := by simp
  in_tx _ := ⟨by simp, rfl, rfl⟩
  in_rx hrx := absurd hrx (by simp)
  busy_clear _ := ⟨rfl, resultsClear_clearResults s⟩
  not_ok_clear _ := resultsClear_clearResults s
  ok_result hok := absurd hok (by simp)
  protocol_error hpe := absurd hpe (by simp)
  ridx_le := by simp

/-- A transaction that ends without ST_OK, after a whole response if the end is ST_PROTOCOL_ERROR. -/
theorem finish_inv {st : BitVec 2} (h : Memory.wf s.rbuf = true) (hr : s.ridx.toNat ≤ 11)
    (hst : st ≠ Config.stOk) (hpe : st = Config.stProtocolError → s.ridx.toNat = respLen s.op) :
    (finish st s).Inv where
  memory := by simpa using h
  phase_legal := by simp
  in_tx htx := absurd htx (by simp)
  in_rx hrx := absurd hrx (by simp)
  busy_clear hb := absurd rfl hb
  not_ok_clear _ := by simp [ResultsClear, hst]
  ok_result hok := absurd hok hst
  protocol_error h2 := ⟨rfl, by simpa using hpe h2⟩
  ridx_le := by simpa using hr

/-- The valid bits `extract` gives are those of `OP` (R25, R118). -/
theorem extract_isSome_iff (op : BitVec 2) (r : List Byte) :
    ((extract op r).hum.isSome = true ↔ op = Config.opHum ∨ op = Config.opBoth) ∧
    ((extract op r).temp.isSome = true ↔ op = Config.opTemp ∨ op = Config.opBoth) ∧
    ((extract op r).info.isSome = true ↔ op = Config.opInfo) := by
  rcases op_cases op with rfl | rfl | rfl | rfl <;> simp [extract]

/-- An absent field reads as the value given for it. -/
theorem getD_of_isSome_eq_false {α : Type} {o : Option α} {a : α} (h : o.isSome = false) :
    o.getD a = a := by
  rw [Option.isSome_eq_false_iff, Option.isNone_iff_eq_none] at h
  rw [h, Option.getD_none]

/-- A transaction that ends with ST_OK, after a whole response (R119). -/
theorem writeResults_finish_inv (h : Memory.wf s.rbuf = true) (hr : s.ridx.toNat = respLen s.op) :
    (writeResults (finish Config.stOk s)).Inv where
  memory := by simpa using h
  phase_legal := by simp
  in_tx htx := absurd htx (by simp)
  in_rx hrx := absurd hrx (by simp)
  busy_clear hb := absurd rfl hb
  not_ok_clear hok := absurd rfl hok
  ok_result _ := by
    obtain ⟨hhum, htemp, hinfo⟩ := extract_isSome_iff s.op (received s)
    exact ⟨rfl, by simpa using hr, by simpa using hhum, by simpa using htemp, by simpa using hinfo,
      getD_of_isSome_eq_false, getD_of_isSome_eq_false, getD_of_isSome_eq_false⟩
  protocol_error hpe := absurd hpe (by simp)
  ridx_le := by simpa [hr] using respLen_le s.op

theorem complete_inv (h : Memory.wf s.rbuf = true) (hr : s.ridx.toNat = respLen s.op) :
    (complete s).Inv := by
  unfold complete
  split
  · exact writeResults_finish_inv h hr
  · exact finish_inv h (hr ▸ respLen_le s.op) (by decide) fun _ => hr

/-! ## The accumulator of a response being received -/

theorem crcRun_append (a : Word) (xs ys : List Byte) :
    crcRun a (xs ++ ys) = crcRun (crcRun a xs) ys := by
  induction xs generalizing a with
  | nil => rfl
  | cons x xs ih => exact ih (crcByte a x)

theorem crc16_append_byte (xs : List Byte) (b : Byte) : crc16 (xs ++ [b]) = crcByte (crc16 xs) b :=
  crcRun_append _ xs [b]

/-- The bytes below `i`, then the byte written at `i`. -/
theorem memBytes_write_succ {m : Memory} (h : Memory.wf m = true) (i : Nat) (v : Byte) :
    memBytes (Memory.write m i v) 0 (i + 1) = memBytes m 0 i ++ [v] := by
  rw [memBytes_succ, memBytes_write (by omega), Nat.zero_add, Memory.read_write_same h]

/-- `ACC` stays the CRC of the bytes received, the two CRC bytes left out (R36 item 3, R116). -/
theorem storeByte_acc_eq (h : Memory.wf s.rbuf = true)
    (hacc : s.acc = crc16 (memBytes s.rbuf 0 (min s.ridx.toNat (crcCheckLen s.op)))) :
    (storeByte b s).acc =
      crc16 (memBytes (storeByte b s).rbuf 0 (min (s.ridx.toNat + 1) (crcCheckLen s.op))) := by
  rw [storeByte_acc, storeByte_rbuf]
  split
  · rename_i hlt
    rw [Nat.min_eq_left (by omega), memBytes_write_succ h, crc16_append_byte, hacc,
      Nat.min_eq_left (by omega)]
  · rename_i hge
    rw [Nat.min_eq_right (by omega), memBytes_write (by omega), hacc, Nat.min_eq_right (by omega)]

/-- In phase RX the invariants come to R36 items 3 and 4. -/
theorem inv_of_rx (hmem : Memory.wf s.rbuf = true) (hp : s.phase = Config.phaseRx)
    (hrx : s.tidx = 3#2 ∧ s.ridx.toNat < respLen s.op ∧
      s.acc = crc16 (memBytes s.rbuf 0 (min s.ridx.toNat (crcCheckLen s.op))))
    (hclear : s.status = Config.stNone ∧ ResultsClear s) : s.Inv where
  memory := hmem
  phase_legal := by simp [hp]
  in_tx htx := absurd (hp.symm.trans htx) (by decide)
  in_rx _ := hrx
  busy_clear _ := hclear
  not_ok_clear _ := hclear.2
  ok_result hok := absurd (hclear.1.symm.trans hok) (by decide)
  protocol_error hpe := absurd (hclear.1.symm.trans hpe) (by decide)
  ridx_le := hrx.2.1.le.trans (respLen_le s.op)

/-- A byte that is not the last of its response. -/
theorem storeByte_inv (h : s.Inv) (hp : s.phase = Config.phaseRx)
    (hlast : s.ridx.toNat + 1 ≠ respLen s.op) : (storeByte b s).Inv := by
  obtain ⟨htidx, hlt, hacc⟩ := h.in_rx hp
  have hr11 : s.ridx.toNat < 11 := hlt.trans_le (respLen_le s.op)
  have hr : (storeByte b s).ridx.toNat = s.ridx.toNat + 1 := ridx_succ hr11
  refine inv_of_rx (Memory.write_wf hr11 h.memory b) hp ⟨htidx, ?_, ?_⟩
    (h.busy_clear (by simp [hp]))
  · rw [hr, storeByte_op]
    omega
  · rw [hr, storeByte_op]
    exact storeByte_acc_eq h.memory hacc

/-- The last request byte is taken: the read begins, with nothing received (R107). -/
theorem State.Inv.beginRx (h : s.Inv) (hp : s.phase = Config.phaseTx) :
    { s with tidx := 3#2, phase := Config.phaseRx }.Inv := by
  obtain ⟨-, hridx, hacc⟩ := h.in_tx hp
  have hr : s.ridx.toNat = 0 := by simp [hridx]
  refine inv_of_rx h.memory rfl ⟨rfl, ?_, ?_⟩ (h.busy_clear (by simp [hp]))
  · have hlen := respLen_pos s.op
    show s.ridx.toNat < respLen s.op
    omega
  · simp only [hr, Nat.zero_min]
    exact hacc

/-- A request byte before the last is taken (R107). -/
theorem State.Inv.nextTx (h : s.Inv) (hp : s.phase = Config.phaseTx) (h2 : s.tidx ≠ 2#2) :
    { s with tidx := s.tidx + 1#2 }.Inv where
  memory := h.memory
  phase_legal := h.phase_legal
  in_tx _ := ⟨by show s.tidx + 1#2 ≠ 3#2; bv_omega, (h.in_tx hp).2⟩
  in_rx hrx := absurd (hp.symm.trans hrx) (by decide)
  busy_clear := h.busy_clear
  not_ok_clear := h.not_ok_clear
  ok_result := h.ok_result
  protocol_error := h.protocol_error
  ridx_le := h.ridx_le

/-- Every event keeps the invariants. -/
theorem event_keeps_inv (hi : isEvent i = true) (h : s.Inv) (he : exec i s = .next t) : t.Inv := by
  have hbad : (finish Config.stTransportError s).Inv :=
    finish_inv h.memory h.ridx_le (by decide) fun h2 => absurd h2 (by decide)
  rcases event_cases hi he with
    ⟨hp, ⟨b, -, rfl⟩ | ⟨-, rfl⟩ | ⟨op, -, rfl⟩⟩ | ⟨hp, -, ⟨-, rfl⟩ | ⟨h2, -, rfl⟩⟩ | ⟨-, -, rfl⟩ |
    ⟨hp, hr, b, -, ⟨hlast, rfl⟩ | ⟨hlast, rfl⟩⟩ | ⟨-, -, rfl⟩ |
    ⟨-, -, rfl⟩ | ⟨-, -, rfl⟩ | ⟨-, -, rfl⟩
  · exact h.withAcc hp _
  · exact h.withAcc hp _
  · exact startRead_inv h.memory op
  · exact h.beginRx hp
  · exact h.nextTx hp h2
  · exact hbad
  · exact complete_inv (Memory.write_wf hr h.memory b) ((ridx_succ hr).trans hlast)
  · exact storeByte_inv h hp hlast
  · exact hbad
  all_goals exact h.raiseFault _

theorem exec_keeps_inv (h : s.Inv) (he : exec i s = .next t) : t.Inv :=
  exec_keeps (fun _ hi _ _ => event_keeps_inv hi) i h he

/-- Settles O45: RESET, an illegal word and each of the ten events keep the invariants of R36. -/
theorem invariantKeptByEveryStep : Obligations.InvariantKeptByEveryStep := by
  unfold Obligations.InvariantKeptByEveryStep
  exact fun s t h he => step_keeps (fun _ ins h => h.withInputs ins) (fun _ h => resetPin_inv h.memory)
    (fun _ h => h.raiseFault _) (fun _ hi _ _ => event_keeps_inv hi) h he

/-- Settles O46: after RESET nothing is valid and no transaction is under way. -/
theorem resetMeetsInvariant : Obligations.ResetMeetsInvariant := by
  unfold Obligations.ResetMeetsInvariant
  have hbacked (s : State) : (resetPin s).ResultsBacked :=
    ⟨fun h => absurd h (by simp), fun h => absurd h (by simp), fun h => absurd h (by simp)⟩
  exact ⟨resetPin_inv (s := State.reset) rfl, fun s h => ⟨resetPin_inv h, hbacked s⟩⟩

/-! ## Instructions that have nothing to do with `RBUF` -/

/-- `f` neither reads nor writes `RBUF`: with another buffer it does the same and leaves that buffer. -/
def IgnoresRbuf (f : State → Outcome) : Prop :=
  ∀ (s : State) (m : Memory) (t : State),
    f s = .next t → f { s with rbuf := m } = .next { t with rbuf := m }

section IgnoresRbuf

variable {f g : State → Outcome}

theorem ignoresRbuf_next {g : State → State}
    (hg : ∀ s m, g { s with rbuf := m } = { g s with rbuf := m }) :
    IgnoresRbuf fun s => .next (g s) := by
  intro s m t h
  cases h
  exact congrArg _ (hg s m)

theorem ignoresRbuf_fault (r : Fault) : IgnoresRbuf fun _ => .fault r := by
  intro s m t h
  cases h

theorem ignoresRbuf_ite {cond : State → Prop} [∀ s, Decidable (cond s)]
    (hc : ∀ s m, cond { s with rbuf := m } ↔ cond s) (hf : IgnoresRbuf f) (hg : IgnoresRbuf g) :
    IgnoresRbuf fun s => if cond s then f s else g s := by
  intro s m t h
  by_cases hs : cond s
  · have hfs : f s = .next t := (if_pos hs).symm.trans h
    exact (if_pos ((hc s m).2 hs)).trans (hf s m t hfs)
  · have hgs : g s = .next t := (if_neg hs).symm.trans h
    exact (if_neg (mt (hc s m).1 hs)).trans (hg s m t hgs)

theorem IgnoresRbuf.andThen (hf : IgnoresRbuf f) (hg : IgnoresRbuf g) :
    IgnoresRbuf fun s => andThen (f s) g := by
  intro s m t h
  obtain ⟨u, hu, ht⟩ := andThen_next.1 h
  exact andThen_next.2 ⟨_, hf s m u hu, hg u m t ht⟩

theorem IgnoresRbuf.admitPhase (hf : IgnoresRbuf f) (p c : BitVec 2) :
    IgnoresRbuf (admitPhase p c f) :=
  ignoresRbuf_ite (fun _ _ => Iff.rfl) hf (ignoresRbuf_next fun _ _ => rfl)

/-- What ignores `RBUF` leaves every byte of it. -/
theorem IgnoresRbuf.rbuf_eq (hf : IgnoresRbuf f) (h : f s = .next t) : t.rbuf = s.rbuf := by
  have hsame : f s = .next { t with rbuf := s.rbuf } := hf s s.rbuf t h
  have ht : t = { t with rbuf := s.rbuf } := Host.Outcome.next.inj (h.symm.trans hsame)
  rw [ht]

theorem execTTxack_ignoresRbuf : IgnoresRbuf execTTxack :=
  IgnoresRbuf.admitPhase
    (ignoresRbuf_ite (fun _ _ => Iff.rfl) (ignoresRbuf_next fun _ _ => rfl)
      (ignoresRbuf_ite (fun _ _ => Iff.rfl) (ignoresRbuf_fault _)
        (ignoresRbuf_next fun _ _ => rfl))) _ _

theorem takeRequest_ignoresRbuf : IgnoresRbuf takeRequest :=
  (execTTxack_ignoresRbuf.andThen execTTxack_ignoresRbuf).andThen execTTxack_ignoresRbuf

theorem emitRequest_ignoresRbuf (op : BitVec 2) : IgnoresRbuf (emitRequest op) :=
  ignoresRbuf_ite (fun _ _ => Iff.rfl) takeRequest_ignoresRbuf
    (IgnoresRbuf.admitPhase (fun s m t h => takeRequest_ignoresRbuf (startRead op s) m t h) _ _)

theorem startRead_ignoresRbuf (op : BitVec 2) :
    IgnoresRbuf (admitHost fun s => .next (startRead op s)) :=
  (ignoresRbuf_next fun _ _ => rfl).admitPhase _ _

theorem transportError_ignoresRbuf (p : BitVec 2) :
    IgnoresRbuf (admitTransport p fun s => .next (finish Config.stTransportError s)) :=
  (ignoresRbuf_next fun _ _ => rfl).admitPhase _ _

end IgnoresRbuf

/-- An instruction that delivers no byte ignores `RBUF`. -/
theorem exec_ignoresRbuf (hd : deliveredBytes i = []) : IgnoresRbuf (exec i) := by
  cases i with
  | crcInit | crcByte => exact (ignoresRbuf_next fun _ _ => rfl).admitPhase _ _
  | rdHum | rdTemp | rdBoth | rdInfo => exact startRead_ignoresRbuf _
  | tTxack => exact execTTxack_ignoresRbuf
  | tTxerr | tRxerr => exact transportError_ignoresRbuf _
  | reqHum | reqTemp | reqBoth | reqInfo => exact emitRequest_ignoresRbuf _
  | _ => cases hd

/-! ## Where the delivered bytes go -/

theorem execTRxbyte_frame (h : exec (.tRxbyte b) s = .next t) :
    s.ridx.toNat ≤ t.ridx.toNat ∧ t.ridx.toNat ≤ s.ridx.toNat + 1 ∧
    ∀ a, a ≠ s.ridx.toNat → Memory.read t.rbuf a = Memory.read s.rbuf a := by
  have hstore (hr : s.ridx.toNat < 11) :
      (storeByte b s).ridx.toNat = s.ridx.toNat + 1 ∧
      ∀ a, a ≠ s.ridx.toNat → Memory.read (storeByte b s).rbuf a = Memory.read s.rbuf a :=
    ⟨ridx_succ hr, fun a ha => Memory.read_write_other ha b⟩
  rcases execTRxbyte_next h with ⟨-, hr, -, rfl⟩ | ⟨-, hr, -, rfl⟩ | ⟨-, rfl⟩
  · obtain ⟨hridx, hread⟩ := hstore hr
    rw [complete_ridx, complete_rbuf]
    exact ⟨by omega, by omega, hread⟩
  · obtain ⟨hridx, hread⟩ := hstore hr
    exact ⟨by omega, by omega, hread⟩
  · exact ⟨le_rfl, Nat.le_succ _, fun _ _ => rfl⟩

/-- A delivery leaves the bytes below `RIDX`, and those above the last one delivered. -/
theorem readBytes_frame {bytes : List Byte} (h : readBytes bytes s = .next t) {a : Nat}
    (ha : a < s.ridx.toNat ∨ s.ridx.toNat + bytes.length ≤ a) :
    Memory.read t.rbuf a = Memory.read s.rbuf a := by
  induction bytes generalizing s with
  | nil => cases h; rfl
  | cons b rest ih =>
    obtain ⟨u, hu, ht⟩ := andThen_next.1 h
    obtain ⟨hle, hge, hread⟩ := execTRxbyte_frame hu
    rw [List.length_cons] at ha
    rw [ih ht (by omega), hread a (by omega)]

theorem readBytes_rbuf_of_not_rx {bytes : List Byte} (hp : s.phase ≠ Config.phaseRx)
    (h : readBytes bytes s = .next t) : t.rbuf = s.rbuf := by
  refine (readBytes_keeps (P := fun u => u.phase ≠ Config.phaseRx ∧ u.rbuf = s.rbuf) ?_
    ⟨hp, rfl⟩ h).2
  rintro b u v ⟨hu, hrbuf⟩ hv
  cases (exec_tRxbyte_refused hu b).symm.trans hv
  exact ⟨hu, hrbuf⟩

/-- Settles O51: what delivers no byte ignores `RBUF`; a delivery writes at `RIDX` and counts. -/
theorem bufferWrittenOnlyAtRidx : Obligations.BufferWrittenOnlyAtRidx := by
  unfold Obligations.BufferWrittenOnlyAtRidx
  intro i s t h
  by_cases hd : deliveredBytes i = []
  · have hrbuf := (exec_ignoresRbuf hd).rbuf_eq h
    exact ⟨fun _ _ => by rw [hrbuf], fun _ => hrbuf⟩
  · rw [exec_delivers hd] at h
    exact ⟨fun _ ha => readBytes_frame h ha, fun hp => readBytes_rbuf_of_not_rx hp h⟩

/-! ## Stale bytes of `RBUF` (R32) -/

/-- `m` may stand in place of the buffer of `s`: in phase RX it holds the bytes received so far. -/
def AgreesOnReceived (s : State) (m : Memory) : Prop :=
  Memory.wf m = true ∧
    (s.phase = Config.phaseRx → ∀ a, a < s.ridx.toNat → Memory.read m a = Memory.read s.rbuf a)

/-- A received byte goes to the same place in both buffers, which then agree up to it. -/
theorem AgreesOnReceived.write (h : AgreesOnReceived s m) (hs : Memory.wf s.rbuf = true)
    (hp : s.phase = Config.phaseRx) (b : Byte) {a : Nat} (ha : a < s.ridx.toNat + 1) :
    Memory.read (Memory.write m s.ridx.toNat b) a =
      Memory.read (Memory.write s.rbuf s.ridx.toNat b) a := by
  by_cases hlast : a = s.ridx.toNat
  · rw [hlast, Memory.read_write_same h.1, Memory.read_write_same hs]
  · rw [Memory.read_write_other hlast, Memory.read_write_other hlast, h.2 hp a (by omega)]

/-- The end of a transaction reads the response in `RBUF` and nothing else of it. -/
theorem complete_with_rbuf (h : memBytes m 0 (respLen s.op) = received s) :
    complete { s with rbuf := m } = { complete s with rbuf := m } := by
  have hrec : received { s with rbuf := m } = received s := h
  unfold complete
  rw [hrec]
  split
  · simp only [writeResults, finish_received, hrec]
    rfl
  · rfl

theorem execTRxbyte_agrees (hs : Memory.wf s.rbuf = true) (hm : AgreesOnReceived s m)
    (h : exec (.tRxbyte b) s = .next t) :
    ∃ m', exec (.tRxbyte b) { s with rbuf := m } = .next { t with rbuf := m' } ∧
      AgreesOnReceived t m' := by
  rcases execTRxbyte_next h with ⟨hp, hr, hlast, rfl⟩ | ⟨hp, hr, hlast, rfl⟩ | ⟨hp, rfl⟩
  · refine ⟨Memory.write m s.ridx.toNat b, ?_, Memory.write_wf hr hm.1 b, fun hrx => ?_⟩
    · refine (exec_tRxbyte_last (s := { s with rbuf := m }) hp hr hlast b).trans ?_
      refine congrArg _ (complete_with_rbuf (s := storeByte b s) (memBytes_congr fun k hk => ?_))
      exact hm.write hs hp b (by rw [storeByte_op] at hk; omega)
    · exact absurd hrx (by simp)
  · refine ⟨Memory.write m s.ridx.toNat b, ?_, Memory.write_wf hr hm.1 b, fun _ a ha => ?_⟩
    · exact exec_tRxbyte_more (s := { s with rbuf := m }) hp hr hlast b
    · exact hm.write hs hp b (by rwa [storeByte_ridx, ridx_succ hr] at ha)
  · exact ⟨m, exec_tRxbyte_refused (s := { s with rbuf := m }) hp b, hm⟩

theorem readBytes_agrees {bytes : List Byte} (hs : s.Inv) (hm : AgreesOnReceived s m)
    (h : readBytes bytes s = .next t) :
    ∃ m', readBytes bytes { s with rbuf := m } = .next { t with rbuf := m' } ∧
      AgreesOnReceived t m' := by
  induction bytes generalizing s m with
  | nil =>
    cases h
    exact ⟨m, rfl, hm⟩
  | cons b rest ih =>
    obtain ⟨u, hu, ht⟩ := andThen_next.1 h
    obtain ⟨n, hn, hun⟩ := execTRxbyte_agrees hs.memory hm hu
    obtain ⟨m', hm', htm⟩ := ih (exec_keeps_inv (i := .tRxbyte b) hs hu) hun ht
    exact ⟨m', andThen_next.2 ⟨_, hn, hm'⟩, htm⟩

/-- An instruction that delivers no byte is in phase RX afterwards only with nothing received, or where
it was before. -/
theorem ridx_of_no_delivery (hs : s.Inv) (hd : deliveredBytes i = []) (h : exec i s = .next t)
    (hp : t.phase = Config.phaseRx) : t.ridx = 0#4 ∨ (s.phase = Config.phaseRx ∧ t.ridx = s.ridx) := by
  rcases hst : startedOp i with _ | op
  · rcases exec_quiet_cases hst hd h with ⟨-, a, rfl⟩ | ⟨-, htx, k, q, rfl⟩ | ⟨-, rfl⟩ | ⟨c, rfl⟩
    · exact .inr ⟨hp, rfl⟩
    · exact .inl (hs.in_tx htx).2.1
    · exact absurd hp (by simp)
    · exact .inr ⟨hp, rfl⟩
  · rcases exec_started_cases hst h with ⟨-, rfl | rfl⟩ | ⟨htx, rfl⟩ | ⟨-, rfl⟩
    · exact .inl rfl
    · exact .inl rfl
    · exact .inl (hs.in_tx htx).2.1
    · exact .inr ⟨hp, rfl⟩

theorem exec_agrees (hs : s.Inv) (hm : AgreesOnReceived s m) (h : exec i s = .next t) :
    ∃ m', exec i { s with rbuf := m } = .next { t with rbuf := m' } ∧ AgreesOnReceived t m' := by
  by_cases hd : deliveredBytes i = []
  · have hfree := exec_ignoresRbuf hd
    refine ⟨m, hfree s m t h, hm.1, fun hp a ha => ?_⟩
    rcases ridx_of_no_delivery hs hd h hp with h0 | ⟨hrx, hridx⟩
    · simp [h0] at ha
    · rw [hfree.rbuf_eq h]
      exact hm.2 hrx a (hridx ▸ ha)
  · rw [exec_delivers hd] at h ⊢
    exact readBytes_agrees hs hm h

theorem step_agrees (hs : s.Inv) (hm : AgreesOnReceived s m) (h : step s = .next t) :
    ∃ m', step { s with rbuf := m } = .next { t with rbuf := m' } ∧ AgreesOnReceived t m' := by
  rcases step_next h with ⟨hin, rfl⟩ | ⟨p, rest, hin, h⟩
  · exact ⟨m, step_nothing hin, hm⟩
  · have hu := hs.withInputs rest
    have hum : AgreesOnReceived { s with inputs := rest } m := hm
    rcases h with ⟨hr, rfl⟩ | ⟨hr, hc, rfl⟩ | ⟨c, i, hr, hc, hd, h⟩ | ⟨w, r, hr, hc, hd, rfl⟩ |
      ⟨bytes, r, hr, hc, hd, h⟩
    · exact ⟨m, step_rst hin hr, hm.1, fun hp => absurd hp (by simp)⟩
    · exact ⟨m, step_noEvent hin hr hc, hm⟩
    · obtain ⟨m', hm', htm⟩ := exec_agrees hu hum h
      exact ⟨m', (step_decoded (s := { s with rbuf := m }) hin hr hc hd).trans hm', htm⟩
    · exact ⟨m, step_rejected (s := { s with rbuf := m }) hin hr hc hd, hm⟩
    · obtain ⟨m', hm', htm⟩ := readBytes_agrees hu hum h
      exact ⟨m', (step_rejected (s := { s with rbuf := m }) hin hr hc hd).trans hm', htm⟩

/-- Settles O52: the step is simulated with any buffer that holds the bytes received so far; no port
reads `RBUF`. -/
theorem staleBufferUnobservable : Obligations.StaleBufferUnobservable := by
  unfold Obligations.StaleBufferUnobservable
  intro s m hs hwf hm
  exact ⟨rfl, fun t h => step_agrees hs ⟨hwf, hm⟩ h⟩

/-! ## The writers of the registers (R15) -/

/-- An instruction records nothing, or F_BUSY or F_UNEXPECTED where nothing was recorded. -/
def FaultKeptOrRecorded (s t : State) : Prop :=
  t.fault = s.fault ∨ (s.fault = 0#2 ∧ (t.fault = 2#2 ∨ t.fault = 3#2))

theorem faultKeptOrRecorded_raiseFault (hc : c = Config.fBusy ∨ c = Config.fUnexpected) :
    FaultKeptOrRecorded s (raiseFault c s) := by
  by_cases hf : s.fault = Config.fNone
  · rw [FaultKeptOrRecorded, raiseFault_fault, if_pos hf]
    exact .inr ⟨hf, hc⟩
  · exact .inl (if_neg hf)

theorem FaultKeptOrRecorded.trans {u : State} (h1 : FaultKeptOrRecorded s t)
    (h2 : FaultKeptOrRecorded t u) : FaultKeptOrRecorded s u := by
  rcases h2 with h2 | ⟨ht, h2⟩
  · rwa [FaultKeptOrRecorded, h2]
  · rcases h1 with h1 | ⟨-, h1⟩
    · exact .inr ⟨h1 ▸ ht, h2⟩
    · simp [ht] at h1

theorem event_inputs_fault (hi : isEvent i = true) (h : exec i s = .next t) :
    t.inputs = s.inputs ∧ FaultKeptOrRecorded s t := by
  rcases event_cases hi h with
    ⟨-, ⟨b, -, rfl⟩ | ⟨-, rfl⟩ | ⟨op, -, rfl⟩⟩ | ⟨-, -, ⟨-, rfl⟩ | ⟨-, -, rfl⟩⟩ | ⟨-, -, rfl⟩ |
    ⟨-, -, b, -, ⟨-, rfl⟩ | ⟨-, rfl⟩⟩ | ⟨-, -, rfl⟩ |
    hrefused
  rotate_right
  · rcases hrefused with ⟨-, -, rfl⟩ | ⟨-, -, rfl⟩ | ⟨-, -, rfl⟩
    · exact ⟨rfl, faultKeptOrRecorded_raiseFault (.inl rfl)⟩
    · exact ⟨rfl, faultKeptOrRecorded_raiseFault (.inr rfl)⟩
    · exact ⟨rfl, faultKeptOrRecorded_raiseFault (.inr rfl)⟩
  all_goals exact ⟨by simp, .inl (by simp)⟩

theorem exec_inputs_fault (h : exec i s = .next t) :
    t.inputs = s.inputs ∧ FaultKeptOrRecorded s t := by
  refine exec_keeps (P := fun u => u.inputs = s.inputs ∧ FaultKeptOrRecorded s u) ?_ i
    ⟨rfl, .inl rfl⟩ h
  rintro j hj u v ⟨hin, hf⟩ hv
  obtain ⟨hin', hf'⟩ := event_inputs_fault hj hv
  exact ⟨hin'.trans hin, hf.trans hf'⟩

/-- A delivery leaves `OP` and `TIDX`. -/
theorem readBytes_op_tidx {bytes : List Byte} (h : readBytes bytes s = .next t) :
    t.op = s.op ∧ t.tidx = s.tidx := by
  refine readBytes_keeps (P := fun u => u.op = s.op ∧ u.tidx = s.tidx) ?_ ⟨rfl, rfl⟩ h
  rintro b u v hu hv
  rcases execTRxbyte_next hv with ⟨-, -, -, rfl⟩ | ⟨-, -, -, rfl⟩ | ⟨-, rfl⟩ <;> simpa using hu

theorem exec_op (hs : startedOp i = none) (h : exec i s = .next t) : t.op = s.op := by
  by_cases hd : deliveredBytes i = []
  · rcases exec_quiet_cases hs hd h with ⟨-, a, rfl⟩ | ⟨-, -, k, q, rfl⟩ | ⟨-, rfl⟩ | ⟨c, rfl⟩ <;> rfl
  · rw [exec_delivers hd] at h
    exact (readBytes_op_tidx h).1

theorem exec_tidx (hs : startedOp i = none) (hi : i ≠ .tTxack) (h : exec i s = .next t) :
    t.tidx = s.tidx := by
  by_cases hd : deliveredBytes i = []
  · rcases exec_quiet_cases hs hd h with ⟨-, a, rfl⟩ | ⟨rfl, -⟩ | ⟨-, rfl⟩ | ⟨c, rfl⟩
    · rfl
    · exact absurd rfl hi
    · rfl
    · rfl
  · rw [exec_delivers hd] at h
    exact (readBytes_op_tidx h).2

theorem exec_ridx (hs : startedOp i = none) (hd : deliveredBytes i = []) (h : exec i s = .next t) :
    t.ridx = s.ridx := by
  rcases exec_quiet_cases hs hd h with ⟨-, a, rfl⟩ | ⟨-, -, k, q, rfl⟩ | ⟨-, rfl⟩ | ⟨c, rfl⟩ <;> rfl

theorem exec_acc (h1 : i ≠ .crcInit) (h2 : ∀ b, i ≠ .crcByte b) (hs : startedOp i = none)
    (hd : deliveredBytes i = []) (h : exec i s = .next t) : t.acc = s.acc := by
  rcases exec_quiet_cases hs hd h with ⟨rfl | ⟨b, rfl⟩, -⟩ | ⟨-, -, k, q, rfl⟩ | ⟨-, rfl⟩ | ⟨c, rfl⟩
  · exact absurd rfl h1
  · exact absurd rfl (h2 b)
  all_goals rfl

/-- What a CRC event can do: write `ACC`, or fault. -/
theorem exec_crc_cases (hi : i = .crcInit ∨ ∃ b, i = .crcByte b) (h : exec i s = .next t) :
    (∃ a, t = { s with acc := a }) ∨ t = raiseFault Config.fBusy s := by
  rcases hi with rfl | ⟨b, rfl⟩
  · exact (execCrcInit_next h).imp (fun h => ⟨_, h.2⟩) (·.2)
  · exact (execCrcByte_next h).imp (fun h => ⟨_, h.2⟩) (·.2)

/-- `STATUS` and the result registers are as they were. -/
def ResultsKept (s t : State) : Prop :=
  t.status = s.status ∧ t.hum = s.hum ∧ t.humV = s.humV ∧ t.temp = s.temp ∧ t.tempV = s.tempV ∧
    t.info = s.info ∧ t.infoV = s.infoV

theorem exec_resultsKept (hi : i = .crcInit ∨ (∃ b, i = .crcByte b) ∨ i = .tTxack)
    (h : exec i s = .next t) : ResultsKept s t := by
  rcases or_assoc.2 hi with hi | rfl
  · rcases exec_crc_cases hi h with ⟨a, rfl⟩ | rfl <;> exact ⟨rfl, rfl, rfl, rfl, rfl, rfl, rfl⟩
  · rcases execTTxack_next h with ⟨-, -, rfl⟩ | ⟨-, -, -, rfl⟩ | ⟨-, rfl⟩ <;>
      exact ⟨rfl, rfl, rfl, rfl, rfl, rfl, rfl⟩

/-- Settles O50: what each kind of instruction can do, register by register. -/
theorem registersHaveTheirWriters : Obligations.RegistersHaveTheirWriters := by
  unfold Obligations.RegistersHaveTheirWriters
  intro i s t h
  obtain ⟨hinputs, hfault⟩ := exec_inputs_fault h
  have hphase (hi : i = .crcInit ∨ ∃ b, i = .crcByte b) : t.phase = s.phase := by
    rcases exec_crc_cases hi h with ⟨a, rfl⟩ | rfl <;> rfl
  exact ⟨hinputs, fun h1 h2 hs hd => exec_acc h1 h2 hs hd h, fun hs => exec_op hs h,
    fun hs hi => exec_tidx hs hi h, fun hs hd => exec_ridx hs hd h, hphase,
    fun hi => exec_resultsKept hi h, hfault⟩

/-! ## The output ports (R33, R34) -/

theorem rxLen_toNat (s : State) :
    (rxLen s).toNat = if s.phase = Config.phaseRx then respLen s.op else 0 := by
  unfold rxLen
  split <;> rfl

/-- Settles O23: the three derived flags and `rx_len` by cases on `PHASE`; the rest is a field. -/
theorem outputPorts : Obligations.OutputPorts := by
  unfold Obligations.OutputPorts
  intro s
  have hbusy : busy s = true ↔ s.phase ≠ 0#2 := bne_iff_ne
  have htx : txValid s = true ↔ s.phase = 1#2 := beq_iff_eq
  have hrx : rxReady s = true ↔ s.phase = 2#2 := beq_iff_eq
  exact ⟨⟨rfl, hbusy, rfl, rfl, rfl, rfl, rfl, rfl⟩, ⟨htx, rfl, hrx, rxLen_toNat s⟩,
    ⟨rfl, rfl, rfl, rfl, rfl, rfl⟩⟩

theorem txByte_of_not_tx (hp : s.phase ≠ Config.phaseTx) : txByte s = 0x00 := if_pos hp

/-- In phase TX the byte on offer is the one of the request frame that `TIDX` counts. -/
theorem txByte_in_tx (hp : s.phase = Config.phaseTx) (ht : s.tidx ≠ 3#2) :
    txByte s = byteAt (requestFrame s.op) s.tidx.toNat := by
  have hcases : ∀ k : BitVec 2, k ≠ 3#2 → k = 0#2 ∨ k = 1#2 ∨ k = 2#2 := by decide
  rcases hcases s.tidx ht with h | h | h <;> simp [txByte, hp, h, requestFrame, byteAt]

/-- In phase TX only the transport's TX events are admitted: any other event is a fault. -/
theorem exec_refused_in_tx (hp : s.phase = Config.phaseTx)
    (hi : isHostEvent i = true ∨ isRxEvent i = true) : ∃ c, exec i s = .next (raiseFault c s) := by
  rcases hi with hi | hi
  · exact ⟨_, exec_host_refused hi (by simp [hp])⟩
  · exact ⟨_, exec_rx_refused hi (by simp [hp])⟩

/-- Settles O35: the offer is the frame's byte at `TIDX`, and a fault changes neither. -/
theorem offeredRequestByte : Obligations.OfferedRequestByte := by
  unfold Obligations.OfferedRequestByte
  refine fun s => ⟨txByte_of_not_tx, txByte_in_tx, fun hp h0 => ?_, fun i t hp hi h => ?_⟩
  · rw [txByte_in_tx hp (by simp [h0]), h0]
    rfl
  · obtain ⟨c, hc⟩ := exec_refused_in_tx hp hi
    cases hc.symm.trans h
    exact ⟨rfl, beq_iff_eq.2 hp⟩

end Sys2Proof.Machine

/-! PROOFS. The sensor's register map (20_memory.md R57): the registers a request names (R72). -/

namespace Sys2Proof.Machine

/-- The registers a request names are the `REQ_COUNT` consecutive ones from `REQ_START`. -/
theorem requestedRegisters_eq_range' (op : BitVec 2) :
    requestedRegisters op = List.range' (reqStart op).toNat (reqCount op).toNat :=
  List.range'_eq_map_range.symm

theorem mem_requestedRegisters {op : BitVec 2} {a : Nat} :
    a ∈ requestedRegisters op ↔
      (reqStart op).toNat ≤ a ∧ a < (reqStart op).toNat + (reqCount op).toNat := by
  rw [requestedRegisters_eq_range', List.mem_range'_1]

/-- A request reads up to 0x03, or within 0x08 to 0x0E (R57). -/
theorem reqStart_add_reqCount_bounds (op : BitVec 2) :
    (reqStart op).toNat + (reqCount op).toNat ≤ 0x04 ∨
      (0x08 ≤ (reqStart op).toNat ∧ (reqStart op).toNat + (reqCount op).toNat ≤ 0x0F) := by
  rcases op_cases op with rfl | rfl | rfl | rfl <;> decide

/-- Settles O15: the four lists are computed; a named address lies between `REQ_START` and its end. -/
theorem requestedRegisters_holds : Obligations.RequestedRegisters := by
  unfold Obligations.RequestedRegisters
  refine ⟨rfl, rfl, rfl, rfl, fun op a ha => ?_⟩
  obtain ⟨hstart, hend⟩ := mem_requestedRegisters.1 ha
  rcases reqStart_add_reqCount_bounds op with h | ⟨h8, hF⟩
  · exact .inl (by omega)
  · exact .inr ⟨h8.trans hstart, by omega⟩

end Sys2Proof.Machine

/-! PROOFS. The encodings (30_encoding.md R64 to R84): the decoder and the encoder are inverse row by row, the
illegal event words, and the frame rows as runs of the event words that carry them. -/

namespace Sys2Proof.Machine

/-! ## Event words (R65 to R68) -/

@[simp] theorem opcOf_eventWord (opc : BitVec 4) (imm8 : Byte) : opcOf (eventWord opc imm8) = opc :=
  BitVec.extractLsb'_append_eq_left

@[simp] theorem imm8Of_eventWord (opc : BitVec 4) (imm8 : Byte) : imm8Of (eventWord opc imm8) = imm8 :=
  BitVec.extractLsb'_append_eq_right

@[simp] theorem eventWord_opcOf_imm8Of (w : EventWord) : eventWord (opcOf w) (imm8Of w) = w := by
  refine BitVec.eq_of_getLsbD_eq fun k hk => ?_
  have h : (eventWord (opcOf w) (imm8Of w)).getLsbD k = _ := @BitVec.getLsbD_append 4 8 k _ _
  rw [h]
  simp only [opcOf, imm8Of, BitVec.getLsbD_extractLsb']
  split
  · simp [*]
  · rw [show 8 + (k - 8) = k by omega]
    simp [show k - 8 < 4 by omega]

/-- How many operand bytes are legal with `opc`: none with an unassigned one, zero alone where R68 requires
it, the four selectors of R67 with RD, every byte otherwise. The legal ones are those below this number. -/
def operandCount (opc : BitVec 4) : Nat :=
  if opc ∈ [0x0#4, 0x4, 0x5, 0x6, 0x7, 0xC, 0xD, 0xE, 0xF] then 0
  else if opc ∈ [0x1#4, 0x8, 0x9, 0xB] then 1
  else if opc = 0x3 then 4
  else 256

theorem operandCount_le (opc : BitVec 4) : operandCount opc ≤ 256 := by
  revert opc; decide

theorem operandCount_unassigned {opc : BitVec 4} (h : opc ∉ [0x1#4, 0x2, 0x3, 0x8, 0x9, 0xA, 0xB]) :
    operandCount opc = 0 := by
  revert opc; decide

/-- `o` is what a decoder may answer for the word `opc ‖ imm8`: a row whose pattern that word is where the
operand is legal, a rejection where it is not. -/
def ReadsWord (opc : BitVec 4) (imm8 : Byte) : Except Reject Instr → Prop
  | .ok i => imm8.toNat < operandCount opc ∧ encode i = .event (eventWord opc imm8)
  | .error _ => operandCount opc ≤ imm8.toNat

theorem noOperand_readsWord {opc : BitVec 4} {i : Instr} (hn : operandCount opc = 1)
    (hi : encode i = .event (eventWord opc 0)) (imm8 : Byte) :
    ReadsWord opc imm8 (noOperand i imm8) := by
  unfold noOperand
  split
  · rename_i h0
    subst h0
    exact ⟨by simp [hn], hi⟩
  · rename_i h0
    have hpos : 1 ≤ imm8.toNat := by bv_omega
    exact hn.trans_le hpos

theorem decodeRead_readsWord (imm8 : Byte) : ReadsWord 0x3 imm8 (decodeRead imm8) := by
  unfold decodeRead
  split_ifs with h0 h1 h2 h3
  · subst h0; exact ⟨by decide, rfl⟩
  · subst h1; exact ⟨by decide, rfl⟩
  · subst h2; exact ⟨by decide, rfl⟩
  · subst h3; exact ⟨by decide, rfl⟩
  · have h4 : 4 ≤ imm8.toNat := by bv_omega
    exact h4

/-- What the decoder can answer for an event word. -/
theorem decodeEvent_eventWord_readsWord (opc : BitVec 4) (imm8 : Byte) :
    ReadsWord opc imm8 (decodeEvent (eventWord opc imm8)) := by
  simp only [decodeEvent, opcOf_eventWord, imm8Of_eventWord]
  split_ifs with h1 h2 h3 h8 h9 hA hB
  · subst h1; exact noOperand_readsWord rfl rfl imm8
  · subst h2; exact ⟨imm8.isLt, rfl⟩
  · subst h3; exact decodeRead_readsWord imm8
  · subst h8; exact noOperand_readsWord rfl rfl imm8
  · subst h9; exact noOperand_readsWord rfl rfl imm8
  · subst hA; exact ⟨imm8.isLt, rfl⟩
  · subst hB; exact noOperand_readsWord rfl rfl imm8
  · have h0 : operandCount opc = 0 := operandCount_unassigned (by
      simp only [List.mem_cons, List.not_mem_nil, or_false, not_or]
      exact ⟨h1, h2, h3, h8, h9, hA, hB⟩)
    exact h0.trans_le (Nat.zero_le _)

theorem decodeEvent_readsWord (w : EventWord) : ReadsWord (opcOf w) (imm8Of w) (decodeEvent w) := by
  have h := decodeEvent_eventWord_readsWord (opcOf w) (imm8Of w)
  rwa [eventWord_opcOf_imm8Of] at h

theorem encode_of_decodeEvent {w : EventWord} {i : Instr} (h : decodeEvent w = .ok i) :
    encode i = .event w := by
  have hw := decodeEvent_readsWord w
  rw [h] at hw
  obtain ⟨-, henc⟩ := hw
  rwa [eventWord_opcOf_imm8Of] at henc

/-- An event word is legal exactly where its operand byte is one its `opc` has. -/
theorem decodeEvent_isOk_iff (w : EventWord) :
    (decodeEvent w).isOk = true ↔ (imm8Of w).toNat < operandCount (opcOf w) := by
  have hw := decodeEvent_readsWord w
  cases hd : decodeEvent w with
  | ok i =>
    rw [hd] at hw
    exact iff_of_true rfl hw.1
  | error r =>
    rw [hd] at hw
    exact iff_of_false Bool.false_ne_true (Nat.not_lt.2 hw)

/-- An event word is rejected exactly where its operand byte is none its `opc` has. -/
theorem decodeEvent_error_iff (w : EventWord) :
    (∃ r, decodeEvent w = .error r) ↔ operandCount (opcOf w) ≤ (imm8Of w).toNat := by
  rw [← Nat.not_lt, ← decodeEvent_isOk_iff]
  cases decodeEvent w with
  | ok i => simp [Except.isOk, Except.toBool]
  | error r => simp [Except.isOk, Except.toBool]

/-! ## Request and response frames (R70 to R74) -/

theorem encode_of_decodeRequest {w : RequestWord} {i : Instr} (h : decodeRequest w = .ok i) :
    encode i = .request w := by
  unfold decodeRequest at h
  split_ifs at h with h1 h2 h3 h4
  · cases h; subst h1; rfl
  · cases h; subst h2; rfl
  · cases h; subst h3; rfl
  · cases h; subst h4; rfl

/-- The pattern of a six-byte response, from its bytes. -/
theorem responseFrame_coveredField (b2 b3 lo hi : Byte) :
    responseFrame (coveredField (joinBytes b2 b3)) (joinBytes hi lo) = [0x03, 0x02, b2, b3, lo, hi] := by
  simp [responseFrame, coveredField, crcWire]

theorem responseFrame_coveredBoth (b2 b3 b4 b5 lo hi : Byte) :
    responseFrame (coveredBoth (joinBytes b2 b3) (joinBytes b4 b5)) (joinBytes hi lo) =
      [0x03, 0x04, b2, b3, b4, b5, lo, hi] := by
  simp [responseFrame, coveredBoth, crcWire]

theorem coveredInfo_eq_map (d : InfoWord) :
    coveredInfo d = 0x03 :: 0x07 :: (List.range 7).map (infoByte d) := rfl

theorem responseFrame_coveredInfo (b2 b3 b4 b5 b6 b7 b8 lo hi : Byte) :
    responseFrame (coveredInfo (joinInfo b2 b3 b4 b5 b6 b7 b8)) (joinBytes hi lo) =
      [0x03, 0x07, b2, b3, b4, b5, b6, b7, b8, lo, hi] := by
  simp [responseFrame, coveredInfo_eq_map, infoByte_joinInfo, crcWire]

theorem encode_of_decodeResponse {op : BitVec 2} {bytes : List Byte} {i : Instr}
    (h : decodeResponse op bytes = .ok i) :
    encode i = .response bytes ∧ i.readUnder op = true := by
  unfold decodeResponse at h
  split at h
  · split_ifs at h with hpat hop
    · obtain ⟨rfl, rfl⟩ := hpat
      cases h
      exact ⟨congrArg Code.response (responseFrame_coveredField _ _ _ _), beq_iff_eq.2 hop⟩
    · obtain ⟨rfl, rfl⟩ := hpat
      cases h
      exact ⟨congrArg Code.response (responseFrame_coveredField _ _ _ _), bne_iff_ne.2 hop⟩
  · split_ifs at h with hpat
    obtain ⟨rfl, rfl⟩ := hpat
    cases h
    exact ⟨congrArg Code.response (responseFrame_coveredBoth _ _ _ _ _ _), rfl⟩
  · split_ifs at h with hpat
    obtain ⟨rfl, rfl⟩ := hpat
    cases h
    exact ⟨congrArg Code.response (responseFrame_coveredInfo _ _ _ _ _ _ _ _ _), rfl⟩
  · cases h

/-! ## Decoder and encoder -/

/-- Only a response row is read differently under another `OP` (R74). -/
theorem readUnder_of_encode_ne_response {i : Instr} (h : ∀ bytes, encode i ≠ .response bytes)
    (op : BitVec 2) : i.readUnder op = true := by
  cases i with
  | respHum | respTemp | respBoth | respInfo => exact absurd rfl (h _)
  | _ => rfl

/-- Settles O11: each of the three decoders answers only rows whose pattern it was shown. -/
theorem decodedPatternIsTheRows : Obligations.DecodedPatternIsTheRows := by
  unfold Obligations.DecodedPatternIsTheRows
  intro op c i h
  cases c with
  | event w =>
    have henc : encode i = .event w := encode_of_decodeEvent h
    exact ⟨henc, readUnder_of_encode_ne_response (by simp [henc]) op⟩
  | request w =>
    have henc : encode i = .request w := encode_of_decodeRequest h
    exact ⟨henc, readUnder_of_encode_ne_response (by simp [henc]) op⟩
  | response bytes => exact encode_of_decodeResponse h

/-- Settles O10: an event by its own word, a request by its number; a response gives its fields back from
their bytes, and the latched `OP` tells HUM from TEMP. -/
theorem decodeEncodeAgree : Obligations.DecodeEncodeAgree := by
  unfold Obligations.DecodeEncodeAgree
  intro op i hread
  cases i with
  | reqHum | reqTemp | reqBoth | reqInfo => rfl
  | respHum h crc =>
    have hop : op ≠ Config.opTemp := bne_iff_ne.1 hread
    simp [encode, decode, decodeResponse, responseFrame, coveredField, crcWire, hop]
  | respTemp t crc =>
    have hop : op = Config.opTemp := beq_iff_eq.1 hread
    simp [encode, decode, decodeResponse, responseFrame, coveredField, crcWire, hop]
  | respBoth h t crc =>
    simp [encode, decode, decodeResponse, responseFrame, coveredBoth, crcWire]
  | respInfo d crc =>
    simp [encode, decode, decodeResponse, responseFrame, coveredInfo, crcWire]
  | _ => exact decode_encode_event rfl op

/-! ## How many event words are legal (R78) -/

theorem opcOf_ofNat (n : Nat) : opcOf (BitVec.ofNat 12 n) = BitVec.ofNat 4 (n / 256) := by
  refine BitVec.eq_of_toNat_eq ?_
  simp only [opcOf, BitVec.extractLsb'_toNat, BitVec.toNat_ofNat, Nat.shiftRight_eq_div_pow]
  omega

theorem imm8Of_ofNat_toNat (n : Nat) : (imm8Of (BitVec.ofNat 12 n)).toNat = n % 256 := by
  simp only [imm8Of, BitVec.extractLsb'_toNat, BitVec.toNat_ofNat, Nat.shiftRight_zero]
  omega

theorem count_eq_of_iff_lt {p : Nat → Prop} [DecidablePred p] {c n : Nat} (hc : c ≤ n)
    (h : ∀ k, k < n → (p k ↔ k < c)) : Nat.count p n = c := by
  obtain ⟨d, rfl⟩ := Nat.exists_eq_add_of_le hc
  have hbelow : Nat.count p c = c := Nat.count_of_forall fun k hk => (h k (by omega)).2 hk
  have habove : Nat.count (fun k => p (c + k)) d = 0 :=
    Nat.count_of_forall_not fun k hk hp => absurd ((h (c + k) (by omega)).1 hp) (by omega)
  rw [Nat.count_add, hbelow, habove, Nat.add_zero]

/-- The legal words of the first `n` values of `opc`, which are the first `256 * n` words. -/
theorem count_legal (n : Nat) :
    Nat.count (fun w => (decodeEvent (BitVec.ofNat 12 w)).isOk = true) (256 * n) =
      ∑ opc ∈ Finset.range n, operandCount (BitVec.ofNat 4 opc) := by
  induction n with
  | zero => rfl
  | succ n ih =>
    have hblock : Nat.count (fun k => (decodeEvent (BitVec.ofNat 12 (256 * n + k))).isOk = true) 256 =
        operandCount (BitVec.ofNat 4 n) := by
      refine count_eq_of_iff_lt (operandCount_le _) fun k hk => ?_
      rw [decodeEvent_isOk_iff, opcOf_ofNat, imm8Of_ofNat_toNat]
      rw [show (256 * n + k) / 256 = n by omega, show (256 * n + k) % 256 = k by omega]
    rw [Nat.mul_succ, Nat.count_add, ih, hblock, Finset.sum_range_succ]

theorem countP_legal :
    ((List.range 4096).countP fun w => (decodeEvent (BitVec.ofNat 12 w)).isOk) = 520 := by
  have h := count_legal 16
  simp only [Nat.count, Bool.decide_eq_true] at h
  exact h.trans (by decide)

theorem countP_illegal :
    ((List.range 4096).countP fun w => !(decodeEvent (BitVec.ofNat 12 w)).isOk) = 3576 := by
  have h := (List.range 4096).length_eq_countP_add_countP
    (p := fun w => (decodeEvent (BitVec.ofNat 12 w)).isOk)
  simp only [List.length_range, countP_legal, Bool.not_eq_true, Bool.decide_eq_false] at h
  omega

/-- The words the table of R78 lists, `opc` by `opc`. -/
theorem operandCount_le_iff (opc : BitVec 4) (imm8 : Byte) :
    operandCount opc ≤ imm8.toNat ↔
      (opc ∈ [0x0#4, 0x4, 0x5, 0x6, 0x7, 0xC, 0xD, 0xE, 0xF] ∨
        (opc ∈ [0x1#4, 0x8, 0x9, 0xB] ∧ imm8 ≠ 0) ∨ (opc = 0x3 ∧ 3 < imm8.toNat)) := by
  have hne : imm8 ≠ 0 ↔ 1 ≤ imm8.toNat := by bv_omega
  have hlt : imm8.toNat < 256 := imm8.isLt
  rw [hne]
  unfold operandCount
  split_ifs with h0 h1 h3
  · exact iff_of_true (Nat.zero_le _) (.inl h0)
  · simp only [h0, h1, true_and, false_or]
    omega
  · simp only [h0, h1, false_and, false_or]
    simp only [h3, true_and]
    omega
  · simp only [h0, h1, h3, false_and, or_false, iff_false]
    omega

/-- Settles O12: a word is illegal where its operand byte is not below `operandCount` of its `opc`, the
legal ones are counted `opc` by `opc`, and the step shown a rejected word records F_ILLEGAL. -/
theorem illegalEventWords : Obligations.IllegalEventWords := by
  unfold Obligations.IllegalEventWords
  refine ⟨fun w => (decodeEvent_error_iff w).trans (operandCount_le_iff _ _), countP_legal,
    countP_illegal, rfl, rfl, fun s w r rest hin hd => ?_⟩
  exact step_rejected hin rfl rfl hd

/-! ## Fixed patterns and lengths (R66, R73, R74, R76) -/

/-- Settles O9: each pattern is a numeral, and the decoder computes on it. -/
theorem patternsDecodeToTheirRows : Obligations.PatternsDecodeToTheirRows :=
  ⟨rfl, rfl, rfl, rfl, rfl, rfl, rfl, rfl, rfl, rfl, rfl, rfl, rfl, rfl, rfl, rfl, rfl, rfl, rfl⟩

/-- Settles O14: the formula is the definition, the number and its bound are laws of the operation table. -/
theorem responseLengths : Obligations.ResponseLengths := by
  unfold Obligations.ResponseLengths
  exact ⟨fun op => ⟨rfl, respLen_eq_count op, respLen_le op, rfl⟩,
    rfl, rfl, rfl, rfl, rfl, rfl, rfl, rfl⟩

/-! ## Events and what is presented later -/

/-- `f` neither reads what is presented later nor takes any of it. -/
def IgnoresInputs (f : State → Outcome) : Prop :=
  ∀ (s : State) (ins : List Presented),
    f { s with inputs := ins } = andThen (f s) fun t => .next { t with inputs := ins }

section IgnoresInputs

variable {f g : State → Outcome}

theorem ignoresInputs_next {g : State → State}
    (hg : ∀ s ins, g { s with inputs := ins } = { g s with inputs := ins }) :
    IgnoresInputs fun s => .next (g s) :=
  fun s ins => congrArg _ (hg s ins)

theorem ignoresInputs_ite {cond : State → Prop} [∀ s, Decidable (cond s)]
    (hc : ∀ s ins, cond { s with inputs := ins } ↔ cond s) (hf : IgnoresInputs f)
    (hg : IgnoresInputs g) : IgnoresInputs fun s => if cond s then f s else g s := by
  intro s ins
  by_cases hs : cond s
  · simp only [if_pos hs, if_pos ((hc s ins).2 hs)]
    exact hf s ins
  · simp only [if_neg hs, if_neg (mt (hc s ins).1 hs)]
    exact hg s ins

theorem IgnoresInputs.admitPhase (hf : IgnoresInputs f) (p c : BitVec 2) :
    IgnoresInputs (admitPhase p c f) :=
  ignoresInputs_ite (fun _ _ => Iff.rfl) hf (ignoresInputs_next fun _ _ => rfl)

theorem takeByte_ignoresInputs : IgnoresInputs takeByte :=
  ignoresInputs_ite (fun _ _ => Iff.rfl) (ignoresInputs_next fun _ _ => rfl)
    (ignoresInputs_ite (fun _ _ => Iff.rfl) (fun _ _ => rfl) (ignoresInputs_next fun _ _ => rfl))

theorem complete_withInputs (s : State) (ins : List Presented) :
    complete { s with inputs := ins } = { complete s with inputs := ins } := by
  have hrec : received { s with inputs := ins } = received s := rfl
  simp only [complete, hrec]
  split <;> rfl

theorem receiveByte_ignoresInputs (b : Byte) : IgnoresInputs (receiveByte b) := by
  refine ignoresInputs_ite (fun _ _ => Iff.rfl) (ignoresInputs_next fun s ins => ?_) fun _ _ => rfl
  split
  · exact complete_withInputs (storeByte b s) ins
  · rfl

end IgnoresInputs

theorem event_ignoresInputs {i : Instr} (h : isEvent i = true) : IgnoresInputs (exec i) := by
  cases i with
  | tTxack => exact takeByte_ignoresInputs.admitPhase _ _
  | tRxbyte b => exact (receiveByte_ignoresInputs b).admitPhase _ _
  | crcInit | crcByte | rdHum | rdTemp | rdBoth | rdInfo | tTxerr | tRxerr =>
    exact (ignoresInputs_next fun _ _ => rfl).admitPhase _ _
  | _ => cases h

/-- What follows an event can present its own inputs afterwards. -/
theorem andThen_event_withInputs {i : Instr} (h : isEvent i = true) (s : State)
    (ins : List Presented) (g : State → Outcome) :
    andThen (exec i { s with inputs := ins }) g =
      andThen (exec i s) fun t => g { t with inputs := ins } := by
  rw [event_ignoresInputs h s ins, andThen_assoc]
  rfl

/-! ## Runs of event words -/

/-- The instructions one after another, each in the state the one before left. -/
def execAll : List Instr → State → Outcome
  | [], s => .next s
  | i :: rest, s => andThen (exec i s) (execAll rest)

/-- A run shown one event after another is their meanings one after another; what is presented later stays. -/
theorem runSteps_shown {is : List Instr} (h : ∀ i ∈ is, isEvent i = true) (s : State)
    (rest : List Presented) :
    runSteps is.length { s with inputs := is.map shown ++ rest } =
      execAll is { s with inputs := rest } := by
  induction is generalizing s with
  | nil => rfl
  | cons i is ih =>
    obtain ⟨hi, his⟩ := List.forall_mem_cons.1 h
    calc runSteps (is.length + 1) { s with inputs := shown i :: (is.map shown ++ rest) }
        = andThen (exec i { s with inputs := is.map shown ++ rest }) (runSteps is.length) := by
          rw [runSteps, step_shown hi]
      _ = andThen (exec i s) fun t =>
            runSteps is.length { t with inputs := is.map shown ++ rest } :=
          andThen_event_withInputs hi ..
      _ = andThen (exec i s) fun t => execAll is { t with inputs := rest } := by
          simp only [ih his]
      _ = execAll (i :: is) { s with inputs := rest } :=
          (andThen_event_withInputs hi ..).symm

theorem readBytes_eq_execAll (bytes : List Byte) (s : State) :
    readBytes bytes s = execAll (bytes.map .tRxbyte) s := by
  induction bytes generalizing s with
  | nil => rfl
  | cons b rest ih => exact congrArg (andThen (exec (.tRxbyte b) s)) (funext ih)

theorem takeRequest_eq_execAll (s : State) :
    takeRequest s = execAll (List.replicate 3 .tTxack) s := by
  simp only [takeRequest, andThen_assoc, List.replicate, execAll, andThen_ret]
  rfl

/-! ## Frames -/

theorem exec_of_encode_response {i : Instr} {bytes : List Byte} (h : encode i = .response bytes)
    (s : State) : exec i s = readBytes bytes s := by
  cases i with
  | respHum | respTemp | respBoth | respInfo => cases h; rfl
  | _ => cases h

/-- Response bytes are delivered, whether or not they fit a pattern (logs 7, 8). -/
theorem step_response {s : State} {bytes : List Byte} {rest : List Presented}
    (hin : s.inputs = ⟨false, some (.response bytes)⟩ :: rest) :
    step s = readBytes bytes { s with inputs := rest } := by
  cases hd : decode s.op (.response bytes) with
  | ok i =>
    rw [step_decoded hin rfl rfl hd]
    exact exec_of_encode_response (encode_of_decodeResponse hd).1 _
  | error r => exact step_rejected hin rfl rfl hd

/-- The frame of an operation goes out (log 6). -/
theorem step_request (s : State) (op : BitVec 2) (rest : List Presented) :
    step { s with inputs :=
        ⟨false, some (.request (requestWord (reqFc op) (reqStart op) (reqCount op)))⟩ :: rest } =
      emitRequest op { s with inputs := rest } := by
  rcases op_cases op with rfl | rfl | rfl | rfl <;> rfl

theorem runSteps_one (s : State) : runSteps 1 s = step s := andThen_ret

theorem runSteps_readScript (s : State) (bytes : List Byte) (rest : List Presented) :
    runSteps bytes.length { s with inputs := readScript bytes ++ rest } =
      readBytes bytes { s with inputs := rest } := by
  have hrun := runSteps_shown (is := bytes.map .tRxbyte) (by simp [isEvent, isRxEvent]) s rest
  rw [List.length_map, List.map_map] at hrun
  rw [readBytes_eq_execAll]
  exact hrun

theorem runSteps_txacks (s : State) (rest : List Presented) :
    runSteps 3 { s with inputs := List.replicate 3 (shown .tTxack) ++ rest } =
      takeRequest { s with inputs := rest } := by
  rw [takeRequest_eq_execAll]
  exact runSteps_shown (is := List.replicate 3 .tTxack) (by simp [isEvent, isTxEvent]) s rest

theorem runSteps_requestScript (s : State) (op : BitVec 2) (rest : List Presented) :
    runSteps 4 { s with inputs := requestScript op 3 ++ rest } =
      andThen (exec (readEvent op) { s with inputs := rest }) takeRequest := by
  rw [funext takeRequest_eq_execAll]
  exact runSteps_shown (is := readEvent op :: List.replicate 3 .tTxack)
    (List.forall_mem_cons.2 ⟨isEvent_readEvent op, by simp [isEvent, isTxEvent]⟩) s rest

/-- Settles O39: a frame row and the event words that carry it are the same sequence of meanings. -/
theorem framesAreEventRuns : Obligations.FramesAreEventRuns := by
  unfold Obligations.FramesAreEventRuns
  refine ⟨fun s bytes rest => ?_, fun s op rest => ?_⟩
  · rw [runSteps_one, step_response rfl, runSteps_readScript]
  · rw [runSteps_one, step_request, emitRequest]
    split_ifs with hoffer hidle
    · exact (runSteps_txacks s rest).symm
    · rw [runSteps_requestScript, exec_readEvent, if_pos hidle]
      exact admitPhase_in hidle
    · rw [runSteps_one, step_shown (isEvent_readEvent op), exec_readEvent, if_neg hidle]
      exact admitPhase_out hidle

end Sys2Proof.Machine

/-! PROOFS. The CRC engine (40_crc_engine.md R87 to R98): the shift bit by bit, the byte step as a bijection, the
residue law, the two CRC events and the host's procedure. -/

namespace Sys2Proof.Machine

/-! ## One shift (R87, R96) -/

theorem crcShift_of_odd {a : Word} (h : a.getLsbD 0 = true) : crcShift a = (a >>> 1) ^^^ Config.crcPoly :=
  if_pos h

theorem crcShift_of_even {a : Word} (h : a.getLsbD 0 = false) : crcShift a = a >>> 1 :=
  if_neg (ne_true_of_eq_false h)

theorem crcPoly_getLsbD (k : Nat) : Config.crcPoly.getLsbD k = decide (k = 0 ∨ k = 13 ∨ k = 15) := by
  by_cases hk : k < 16
  · revert k; decide
  · rw [BitVec.getLsbD_of_ge _ _ (by omega), eq_comm, decide_eq_false_iff_not]
    omega

/-- Every bit of a shift: the next higher bit, with the dropped bit XORed into bits 0, 13 and 15. -/
theorem crcShift_getLsbD (a : Word) (k : Nat) :
    (crcShift a).getLsbD k =
      (a.getLsbD (k + 1) ^^ (a.getLsbD 0 && decide (k = 0 ∨ k = 13 ∨ k = 15))) := by
  rw [← crcPoly_getLsbD, Nat.add_comm k 1, ← BitVec.getLsbD_ushiftRight]
  cases h : a.getLsbD 0 with
  | true => rw [crcShift_of_odd h, BitVec.getLsbD_xor, Bool.true_and]
  | false => rw [crcShift_of_even h, Bool.false_and, Bool.xor_false]

/-- The dropped bit comes back as bit 15 (R96). -/
theorem crcShift_getLsbD_15 (a : Word) : (crcShift a).getLsbD 15 = a.getLsbD 0 := by
  rw [crcShift_getLsbD, BitVec.getLsbD_of_ge a _ (by decide)]
  simp

/-- A shift can be undone: bit 15 of the result tells which bit was dropped, and so what was XORed. -/
theorem crcShift_injective : Function.Injective crcShift := by
  intro a b hab
  have h0 : a.getLsbD 0 = b.getLsbD 0 := by rw [← crcShift_getLsbD_15 a, hab, crcShift_getLsbD_15]
  refine BitVec.eq_of_getLsbD_eq fun k _ => ?_
  cases k with
  | zero => exact h0
  | succ k =>
    have hk : (crcShift a).getLsbD k = (crcShift b).getLsbD k := by rw [hab]
    rwa [crcShift_getLsbD, crcShift_getLsbD, h0, Bool.xor_left_inj] at hk

theorem crcShift_bijective : Function.Bijective crcShift :=
  Finite.injective_iff_bijective.1 crcShift_injective

/-- Settles O1: each clause is one instance of `crcShift_getLsbD`. -/
theorem crcShiftBitByBit : Obligations.CrcShiftBitByBit := by
  unfold Obligations.CrcShiftBitByBit
  refine ⟨fun a => ⟨fun hodd => ?_, fun heven => ?_⟩, by decide⟩
  · refine ⟨crcShift_of_odd hodd, (crcShift_getLsbD_15 a).trans hodd, ?_, ?_, fun k hlo hhi => ?_, ?_⟩
    · rw [crcShift_getLsbD]; simp
    · rw [crcShift_getLsbD, hodd]; simp
    · have hk : ¬(k = 0 ∨ k = 13 ∨ k = 15) := by omega
      simp [crcShift_getLsbD, hk]
    · rw [crcShift_getLsbD, hodd]; simp
  · exact ⟨crcShift_of_even heven, (crcShift_getLsbD_15 a).trans heven,
      fun k _ => by rw [crcShift_getLsbD, heven, Bool.false_and, Bool.xor_false]⟩

/-! ## One byte: an XOR, then eight shifts (R88, R96) -/

theorem crcShifts_eq_iterate (n : Nat) : crcShifts n = crcShift^[n] := by
  induction n with
  | zero => rfl
  | succ n ih => exact funext fun a => congrFun ih (crcShift a)

theorem crcByte_eq_iterate (a : Word) (b : Byte) : crcByte a b = crcShift^[8] (a ^^^ b.setWidth 16) :=
  congrFun (crcShifts_eq_iterate 8) _

theorem crcByte_bijective (b : Byte) : Function.Bijective fun a => crcByte a b := by
  have hxor : Function.Involutive fun a : Word => a ^^^ b.setWidth 16 := fun a => by
    simp only [BitVec.xor_assoc, BitVec.xor_self, BitVec.xor_zero]
  have hcomp := (crcShift_bijective.iterate 8).comp hxor.bijective
  exact (funext fun a => crcByte_eq_iterate a b) ▸ hcomp

/-- The XOR is the whole use of the byte. -/
theorem crcByte_eq_xor_zero (a : Word) (b : Byte) : crcByte a b = crcByte (a ^^^ b.setWidth 16) 0x00 := by
  have hzero : (0x00 : Byte).setWidth 16 = 0#16 := rfl
  rw [crcByte, crcByte, hzero, BitVec.xor_zero]

/-- Settles O7: a bijective XOR, then eight bijective shifts. -/
theorem crcStepsAreBijections : Obligations.CrcStepsAreBijections :=
  ⟨crcShift_bijective, crcByte_bijective, crcShift_getLsbD_15, crcByte_eq_xor_zero⟩

theorem hiByte_xor_setWidth (a : Word) (b : Byte) : hiByte (a ^^^ b.setWidth 16) = hiByte a := by
  refine BitVec.eq_of_getLsbD_eq fun k hk => ?_
  simp [hiByte, hk]

theorem loByte_xor_setWidth (a : Word) (b : Byte) : loByte (a ^^^ b.setWidth 16) = loByte a ^^^ b := by
  refine BitVec.eq_of_getLsbD_eq fun k hk => ?_
  have hk16 : k < 16 := by omega
  simp [loByte, hk, hk16]

/-- Settles O2: the two halves of the XOR; the eight shifts are the definition. -/
theorem crcByteIsOneXorAndEightShifts : Obligations.CrcByteIsOneXorAndEightShifts := by
  unfold Obligations.CrcByteIsOneXorAndEightShifts
  exact ⟨fun a b => ⟨hiByte_xor_setWidth a b, loByte_xor_setWidth a b, rfl⟩, by decide, by decide⟩

/-! ## Sequences (R89, R90, R97) -/

/-- Settles O4, by `crcRun_append`. -/
theorem crcRunComposes : Obligations.CrcRunComposes := crcRun_append

/-- One more byte of a sequence whose CRC is known. -/
theorem crc16_append_byte_of_eq {xs : List Byte} {a c : Word} {b : Byte} (ha : crc16 xs = a)
    (hc : crcByte a b = c) : crc16 (xs ++ [b]) = c := by
  rw [crc16_append_byte, ha, hc]

/-- The running accumulator of the source's regression vector, one byte at a time (R89). -/
theorem crc16_runningValues :
    crc16 [0x03] = 0x41FF ∧ crc16 [0x03, 0x04] = 0x8300 ∧ crc16 [0x03, 0x04, 0x03] = 0x01C3 ∧
    crc16 [0x03, 0x04, 0x03, 0x39] = 0x4381 ∧ crc16 [0x03, 0x04, 0x03, 0x39, 0x01] = 0xA042 ∧
    crc16 [0x03, 0x04, 0x03, 0x39, 0x01, 0x15] = 0xFEE1 := by
  have h1 := crc16_append_byte_of_eq (xs := []) (b := 0x03) (c := 0x41FF) rfl (by decide)
  have h2 := crc16_append_byte_of_eq (b := 0x04) (c := 0x8300) h1 (by decide)
  have h3 := crc16_append_byte_of_eq (b := 0x03) (c := 0x01C3) h2 (by decide)
  have h4 := crc16_append_byte_of_eq (b := 0x39) (c := 0x4381) h3 (by decide)
  have h5 := crc16_append_byte_of_eq (b := 0x01) (c := 0xA042) h4 (by decide)
  have h6 := crc16_append_byte_of_eq (b := 0x15) (c := 0xFEE1) h5 (by decide)
  exact ⟨h1, h2, h3, h4, h5, h6⟩

/-- Settles O3: the equations are the definitions, the running values `crc16_runningValues`. -/
theorem crc16RegressionVector : Obligations.Crc16RegressionVector := by
  unfold Obligations.Crc16RegressionVector
  exact ⟨fun _ => rfl, fun _ _ _ => rfl, fun _ => rfl, rfl, crc16_runningValues⟩

theorem crc16_append (xs ys : List Byte) : crc16 (xs ++ ys) = crcRun (crc16 xs) ys :=
  crcRun_append _ xs ys

/-- While only zeros are dropped, shifting is dividing: the constant is never XORed. -/
theorem crcShifts_of_low_bits_zero {n : Nat} {a : Word} (h : ∀ k < n, a.getLsbD k = false) :
    crcShifts n a = a >>> n := by
  induction n generalizing a with
  | zero => simp [crcShifts]
  | succ n ih =>
    have hlow : ∀ k < n, (a >>> 1).getLsbD k = false := fun k hk => by
      rw [BitVec.getLsbD_ushiftRight]
      exact h _ (by omega)
    rw [crcShifts, crcShift_of_even (h 0 (by omega)), ih hlow, Nat.add_comm n 1, BitVec.shiftRight_add]

theorem ushiftRight_bitsPerByte (a : Word) : a >>> Config.bitsPerByte = (hiByte a).setWidth 16 := by
  refine BitVec.eq_of_getLsbD_eq fun k hk => ?_
  by_cases hk8 : k < 8
  · simp [hiByte, hk, hk8]
  · simp [hiByte, hk8, BitVec.getLsbD_of_ge a (8 + k) (by omega)]

/-- Absorbing the accumulator's own low byte clears it and moves the high byte down. -/
theorem crcByte_loByte (c : Word) : crcByte c (loByte c) = (hiByte c).setWidth 16 := by
  have hlow : ∀ k < 8, (c ^^^ (loByte c).setWidth 16).getLsbD k = false := fun k hk => by
    have hk16 : k < 16 := by omega
    simp [loByte, hk, hk16]
  rw [crcByte, crcShifts_of_low_bits_zero hlow, ushiftRight_bitsPerByte, hiByte_xor_setWidth]

/-- Absorbing the byte that is the whole accumulator leaves zero. -/
theorem crcByte_setWidth_self (b : Byte) : crcByte (b.setWidth 16) b = 0 := by
  rw [crcByte, BitVec.xor_self, crcShifts_of_low_bits_zero fun k _ => BitVec.getLsbD_zero]
  rfl

/-- The two CRC bytes in wire order cancel any accumulator (R97). -/
theorem crcRun_crcWire (c : Word) : crcRun c (crcWire c) = 0 := by
  rw [crcWire, crcRun, crcRun, crcRun, crcByte_loByte, crcByte_setWidth_self]

/-- Settles O6: the message leaves its CRC in the accumulator, and the CRC's own bytes cancel it. -/
theorem residueLaw : Obligations.ResidueLaw := by
  unfold Obligations.ResidueLaw
  refine ⟨fun m => ?_, ?_⟩
  · rw [crc16_append]
    exact crcRun_crcWire (crc16 m)
  · obtain ⟨-, -, -, -, -, hvec⟩ := crc16_runningValues
    rw [crc16_append, hvec]
    calc crcRun 0xFEE1 (toBytes 0xFEE1) = crcByte (crcByte 0xFEE1 0xFE) 0xE1 := rfl
      _ = crcByte 0xC8BF 0xE1 := congrArg (crcByte · 0xE1) (by decide)
      _ = 0xF849 := by decide

/-- Settles O5: both orders and the ports are written from the same two bytes. -/
theorem crcBytePairs : Obligations.CrcBytePairs := by
  unfold Obligations.CrcBytePairs
  exact ⟨fun _ => ⟨rfl, rfl, rfl⟩, fun _ => rfl, rfl, rfl⟩

/-! ## The two CRC events (R93, R94) -/

theorem eventWord_toNat (opc : BitVec 4) (imm8 : Byte) :
    (eventWord opc imm8).toNat = opc.toNat * 256 + imm8.toNat := by
  have happend : (eventWord opc imm8).toNat = _ := @BitVec.toNat_append 4 8 opc imm8
  rw [happend, ← Nat.shiftLeft_add_eq_or_of_lt imm8.isLt, Nat.shiftLeft_eq]

/-- The word of CRC.BYTE is 0x200 plus its byte (R94). -/
theorem encode_crcByte (b : Byte) : encode (.crcByte b) = .event (0x200 + b.setWidth 12) := by
  refine congrArg Code.event (BitVec.eq_of_toNat_eq ?_)
  have hb := b.isLt
  rw [eventWord_toNat, BitVec.toNat_add, BitVec.toNat_setWidth]
  simp
  omega

/-- A word whose operand byte is none its `opc` has raises F_ILLEGAL and does nothing else (R78, R136). -/
theorem step_illegal_eventWord {s : State} {opc : BitVec 4} {x : Byte} {rest : List Presented}
    (hx : operandCount opc ≤ x.toNat) (hin : s.inputs = ⟨false, some (.event (eventWord opc x))⟩ :: rest) :
    step s = .next (raiseFault Config.fIllegal { s with inputs := rest }) := by
  obtain ⟨r, hr⟩ := (decodeEvent_error_iff (eventWord opc x)).2 (by simpa using hx)
  exact step_rejected hin rfl rfl hr

/-- Settles O24: the two sides of the admission check, and the one operand byte that 0x1 has. -/
theorem crcInitLoadsAccumulator : Obligations.CrcInitLoadsAccumulator := by
  unfold Obligations.CrcInitLoadsAccumulator
  refine ⟨fun s => ⟨fun hidle => ?_, fun hbusy => ?_⟩, rfl, fun x s rest hx hin => ?_⟩
  · rw [exec_crcInit, if_pos hidle]
  · exact exec_host_refused rfl hbusy
  · have hpos : 1 ≤ x.toNat := by bv_omega
    exact step_illegal_eventWord (opc := 0x1) hpos hin

/-- Settles O25: the two sides of the admission check, the word as a sum, and the rule's five values. -/
theorem crcByteAbsorbsByte : Obligations.CrcByteAbsorbsByte := by
  unfold Obligations.CrcByteAbsorbsByte
  refine ⟨fun b s => ⟨fun hidle => ?_, fun hbusy => ?_, encode_crcByte b⟩, by decide⟩
  · rw [exec_crcByte, if_pos hidle]
  · exact exec_host_refused rfl hbusy

/-! ## The host's procedure (R95, R98) -/

theorem execAll_crcBytes {s : State} (hp : s.phase = Config.phaseIdle) (bytes : List Byte) :
    execAll (bytes.map .crcByte) s = .next { s with acc := crcRun s.acc bytes } := by
  induction bytes generalizing s with
  | nil => rfl
  | cons b rest ih =>
    rw [List.map_cons, execAll, exec_crcByte, if_pos hp]
    exact ih (s := { s with acc := crcByte s.acc b }) hp

/-- A whole script of events, shown to a state, is their meanings with nothing presented afterwards. -/
theorem runScript_shown {is : List Instr} (h : ∀ i ∈ is, isEvent i = true) (s : State) :
    runScript (is.map shown) s = execAll is { s with inputs := [] } := by
  have hrun := runSteps_shown h s []
  rwa [List.append_nil, ← List.length_map (f := shown)] at hrun

theorem runScript_crcBytes {s : State} (hp : s.phase = Config.phaseIdle) (bytes : List Byte) :
    runScript (bytes.map fun b => shown (.crcByte b)) s =
      .next { s with acc := crcRun s.acc bytes, inputs := [] } := by
  have hrun := runScript_shown (is := bytes.map .crcByte) (by simp [isEvent, isHostEvent]) s
  rw [List.map_map] at hrun
  exact hrun.trans (execAll_crcBytes (s := { s with inputs := [] }) hp bytes)

theorem runScript_crcScript {s : State} (hp : s.phase = Config.phaseIdle) (bytes : List Byte) :
    runScript (crcScript bytes) s = .next { s with acc := crc16 bytes, inputs := [] } := by
  have hrun := runScript_shown (is := .crcInit :: bytes.map .crcByte) (by simp [isEvent, isHostEvent]) s
  rw [List.map_cons, List.map_map, execAll, exec_crcInit, if_pos hp] at hrun
  exact hrun.trans (execAll_crcBytes (s := { s with acc := Config.crcInit, inputs := [] }) hp bytes)

/-- Settles O8: the run is that of the meanings; CRC.INIT makes the accumulator before irrelevant. -/
theorem hostCrcProcedure : Obligations.HostCrcProcedure := by
  unfold Obligations.HostCrcProcedure
  intro s bytes hp
  exact ⟨⟨_, runScript_crcScript hp bytes, rfl, rfl, rfl⟩, runScript_crcBytes hp bytes⟩

end Sys2Proof.Machine

/-! PROOFS. Sending a request (41_frame_request.md R100 to R110): the request frames, the RD events, the
transport's events of a write, the write as a whole, and the phase graph. -/

namespace Sys2Proof.Machine

variable {s : State} {i : Instr}

/-! ## The request frames (R73, R79, R100) -/

theorem decodeRequest_eq_error {w : RequestWord}
    (h : w ∉ [0x030002#24, 0x030202, 0x030004, 0x030807]) :
    decodeRequest w = .error .notARequestFrame := by
  simp only [List.mem_cons, List.not_mem_nil, or_false, not_or] at h
  obtain ⟨hhum, htemp, hboth, hinfo⟩ := h
  exact (if_neg hhum).trans ((if_neg htemp).trans ((if_neg hboth).trans (if_neg hinfo)))

theorem mem_of_decodeRequest {w : RequestWord} (h : decodeRequest w = .ok i) :
    w ∈ [0x030002#24, 0x030202, 0x030004, 0x030807] := by
  by_contra hw
  cases h.symm.trans (decodeRequest_eq_error hw)

/-- Settles O13: the frames are the operation table's rows, and any other word is rejected. -/
theorem requestFrames : Obligations.RequestFrames := by
  unfold Obligations.RequestFrames
  exact ⟨rfl, rfl, rfl, rfl, rfl, rfl, rfl, rfl, fun _ => rfl, fun _ _ => mem_of_decodeRequest⟩

/-! ## T.TXACK, T.TXERR and T.RXERR, one equation per case (R107, R108, R114) -/

theorem exec_tTxack_last (hp : s.phase = Config.phaseTx) (ht : s.tidx = 2#2) :
    exec .tTxack s = .next { s with tidx := 3#2, phase := Config.phaseRx } := by
  rw [exec_tTxack, if_pos hp, takeByte, if_pos ht]

theorem exec_tTxack_more (hp : s.phase = Config.phaseTx) (ht : s.tidx.toNat < 2) :
    exec .tTxack s = .next { s with tidx := s.tidx + 1#2 } := by
  have h2 : s.tidx ≠ 2#2 := by bv_omega
  have h3 : s.tidx ≠ 3#2 := by bv_omega
  rw [exec_tTxack, if_pos hp, takeByte, if_neg h2, if_neg h3]

theorem exec_tTxack_stops (hp : s.phase = Config.phaseTx) (ht : s.tidx = 3#2) :
    exec .tTxack s = .fault .tidxRange := by
  rw [exec_tTxack, if_pos hp, takeByte, if_neg (by simp [ht]), if_pos ht]

theorem exec_tRxbyte_stops (hp : s.phase = Config.phaseRx) (hr : 11 ≤ s.ridx.toNat) (b : Byte) :
    exec (.tRxbyte b) s = .fault .rbufIndex := by
  rw [exec_tRxbyte, if_pos hp, receiveByte, if_neg (Nat.not_lt.2 hr)]

theorem exec_tTxerr_admitted (hp : s.phase = Config.phaseTx) :
    exec .tTxerr s = .next (finish Config.stTransportError s) := by
  rw [exec_tTxerr, if_pos hp]

theorem exec_tRxerr_admitted (hp : s.phase = Config.phaseRx) :
    exec .tRxerr s = .next (finish Config.stTransportError s) := by
  rw [exec_tRxerr, if_pos hp]

/-- Settles O22: the two indices out of range, and the word the decoder rejects. -/
theorem stopsOfTheModel : Obligations.StopsOfTheModel := by
  unfold Obligations.StopsOfTheModel
  refine ⟨fun b s hp hr => exec_tRxbyte_stops hp hr b, fun s => exec_tTxack_stops, ?_⟩
  exact fun s w rest hin hw => step_rejected hin rfl rfl (decodeRequest_eq_error hw)

/-- Settles O27: the third byte, one before it, and the other phases. -/
theorem txackTakesOfferedByte : Obligations.TxackTakesOfferedByte := by
  unfold Obligations.TxackTakesOfferedByte
  refine ⟨fun s => ⟨fun hp ht => ?_, fun hp ht => ?_, exec_tx_refused rfl⟩, rfl⟩
  · exact ⟨_, exec_tTxack_last hp ht, rfl, rfl, rfl, rxLen_toNat _⟩
  · have hlt : s.tidx.toNat < 2 := by rcases ht with h | h <;> simp [h]
    have hsucc : (s.tidx + 1#2).toNat = s.tidx.toNat + 1 := by bv_omega
    exact ⟨_, exec_tTxack_more hp hlt, rfl, hsucc⟩

/-- Settles O28: both events are `finish` with ST_TRANSPORT_ERROR in their phase. -/
theorem transportErrorsEndTransaction : Obligations.TransportErrorsEndTransaction := by
  unfold Obligations.TransportErrorsEndTransaction
  refine ⟨?_, rfl, rfl⟩
  simp only [List.forall_mem_cons, List.not_mem_nil, false_implies, implies_true, and_true]
  exact ⟨fun s => ⟨exec_tTxerr_admitted, exec_tx_refused rfl⟩,
    fun s => ⟨exec_tRxerr_admitted, exec_rx_refused rfl⟩⟩

/-! ## The RD events (R101 to R105) -/

theorem encode_readEvent (op : BitVec 2) : encode (readEvent op) = .event (0x300 + op.setWidth 12) := by
  rcases op_cases op with rfl | rfl | rfl | rfl <;> rfl

theorem isHostEvent_readEvent (op : BitVec 2) : isHostEvent (readEvent op) = true := by
  rcases op_cases op with rfl | rfl | rfl | rfl <;> rfl

theorem exec_readEvent_idle (hp : s.phase = Config.phaseIdle) (op : BitVec 2) :
    exec (readEvent op) s = .next (startRead op s) := by
  rw [exec_readEvent, if_pos hp]

/-- Settles O26: the four rows are `readEvent` of their operation, and 0x3 has four operand bytes. -/
theorem readEventsStartTransaction : Obligations.ReadEventsStartTransaction := by
  unfold Obligations.ReadEventsStartTransaction
  refine ⟨?_, fun x s rest hx hin => step_illegal_eventWord (opc := 0x3) hx hin⟩
  have hrow : ∀ x ∈ [(Instr.rdHum, 0#2), (.rdTemp, 1#2), (.rdBoth, 2#2), (.rdInfo, 3#2)],
      x.1 = readEvent x.2 := by decide
  intro x hx s
  rw [hrow x hx]
  refine ⟨encode_readEvent _, fun hidle => ?_, exec_host_refused (isHostEvent_readEvent _)⟩
  exact ⟨_, exec_readEvent_idle hidle _, rfl, rfl, rfl, rfl, rfl, rfl, rfl, rfl, rfl, rfl⟩

/-! ## The write as a whole (R109) -/

theorem execAll_append (is js : List Instr) (s : State) :
    execAll (is ++ js) s = andThen (execAll is s) (execAll js) := by
  induction is generalizing s with
  | nil => rfl
  | cons i is ih =>
    rw [List.cons_append, execAll, execAll, andThen_assoc]
    exact congrArg (andThen (exec i s)) (funext ih)

/-- While the third byte is not taken, `TIDX` counts the bytes taken. -/
theorem execAll_txacks {k : Nat} (hp : s.phase = Config.phaseTx) (hk : s.tidx.toNat + k < 3) :
    execAll (List.replicate k .tTxack) s = .next { s with tidx := s.tidx + BitVec.ofNat 2 k } := by
  induction k generalizing s with
  | zero => simp [execAll]
  | succ k ih =>
    have hsucc : (s.tidx + 1#2).toNat = s.tidx.toNat + 1 := by bv_omega
    have hrest := ih (s := { s with tidx := s.tidx + 1#2 }) hp (by simp only [hsucc]; omega)
    rw [List.replicate_succ, execAll, exec_tTxack_more hp (by omega)]
    refine hrest.trans ?_
    rw [BitVec.add_assoc, ← BitVec.ofNat_add, Nat.add_comm 1 k]

/-- A script that starts with a request, shown to a block in IDLE. -/
theorem runScript_requestScript_append {is : List Instr} (his : ∀ i ∈ is, isEvent i = true)
    (hp : s.phase = Config.phaseIdle) (op : BitVec 2) (k : Nat) :
    runScript (requestScript op k ++ is.map shown) s =
      execAll (List.replicate k .tTxack ++ is) (startRead op { s with inputs := [] }) := by
  have hacks : ∀ i ∈ List.replicate k Instr.tTxack, isEvent i = true := fun i hi =>
    List.eq_of_mem_replicate hi ▸ rfl
  have hrun := runScript_shown
    (List.forall_mem_cons.2 ⟨isEvent_readEvent op, List.forall_mem_append.2 ⟨hacks, his⟩⟩) s
  rw [execAll, exec_readEvent_idle (s := { s with inputs := [] }) hp, List.map_cons, List.map_append,
    List.map_replicate] at hrun
  exact hrun

theorem runScript_requestScript (hp : s.phase = Config.phaseIdle) (op : BitVec 2) (k : Nat) :
    runScript (requestScript op k) s =
      execAll (List.replicate k .tTxack) (startRead op { s with inputs := [] }) := by
  simpa using runScript_requestScript_append (is := []) (by simp) hp op k

/-- The state in which the transport has taken `k` bytes of the request of `op`, and byte `k` is on offer. -/
def offered (op : BitVec 2) (k : Nat) (s : State) : State :=
  { startRead op s with tidx := BitVec.ofNat 2 k }

theorem execAll_txacks_startRead {k : Nat} (hk : k < 3) (op : BitVec 2) (s : State) :
    execAll (List.replicate k .tTxack) (startRead op s) = .next (offered op k s) := by
  rw [execAll_txacks rfl (by simpa using hk), startRead_tidx, BitVec.zero_add]
  rfl

theorem runScript_request_taken (hp : s.phase = Config.phaseIdle) (op : BitVec 2) {k : Nat} (hk : k < 3) :
    runScript (requestScript op k) s = .next (offered op k { s with inputs := [] }) := by
  rw [runScript_requestScript hp, execAll_txacks_startRead hk]

theorem runScript_request_failed (hp : s.phase = Config.phaseIdle) (op : BitVec 2) {k : Nat} (hk : k < 3) :
    runScript (requestScript op k ++ [shown .tTxerr]) s =
      .next (finish Config.stTransportError (offered op k { s with inputs := [] })) := by
  have hrun := runScript_requestScript_append (is := [.tTxerr]) (by simp [isEvent, isTxEvent]) hp op k
  rw [execAll_append, execAll_txacks_startRead hk] at hrun
  exact hrun

theorem runScript_request_whole (hp : s.phase = Config.phaseIdle) (op : BitVec 2) :
    runScript (requestScript op 3) s =
      .next { startRead op { s with inputs := [] } with tidx := 3#2, phase := Config.phaseRx } := by
  rw [runScript_requestScript hp, ← takeRequest_eq_execAll]
  exact takeRequest_whole rfl rfl

/-- Settles O36: after `k < 3` T.TXACK the block is `offered op k`; a third T.TXACK begins the read. -/
theorem writeAsAWhole : Obligations.WriteAsAWhole := by
  unfold Obligations.WriteAsAWhole
  refine fun s op hp => ⟨fun k hk => ?_, _, runScript_request_whole hp op, rfl, rfl, rfl, rfl, rfl⟩
  have htidx : (offered op k { s with inputs := [] }).tidx.toNat = k := Nat.mod_eq_of_lt (by omega)
  have h3 : (offered op k { s with inputs := [] }).tidx ≠ 3#2 := by bv_omega
  have hbyte := txByte_in_tx rfl h3
  rw [htidx] at hbyte
  exact ⟨_, _, runScript_request_taken hp op hk, rfl, hbyte, runScript_request_failed hp op hk,
    by rw [hp]; rfl, htidx⟩

/-- Settles O37: a REQ row is `emitRequest` of its operation, whose three cases these are. -/
theorem requestFramesGoOut : Obligations.RequestFramesGoOut := by
  unfold Obligations.RequestFramesGoOut
  have hrow : ∀ x ∈ [(Instr.reqHum, 0#2), (.reqTemp, 1#2), (.reqBoth, 2#2), (.reqInfo, 3#2)],
      startedOp x.1 = some x.2 ∧ isEvent x.1 = false := by decide
  intro x hx s
  obtain ⟨hop, hev⟩ := hrow x hx
  rw [exec_request hop hev, emitRequest_eq]
  refine ⟨fun hidle => ?_, fun hp ht hs => ?_, fun hbusy hoffer => ?_⟩
  · rw [if_neg (by simp [hidle]), if_pos hidle]
    rfl
  · rw [if_pos ⟨hp, ht, hs⟩]
  · rw [if_neg hoffer, if_neg hbusy]
    rfl

/-! ## The phase graph (R110) -/

theorem readEvent_mem (op : BitVec 2) :
    readEvent op ∈ [Instr.rdHum, .rdTemp, .rdBoth, .rdInfo] := by
  revert op; decide

theorem complete_status_cases (s : State) :
    (complete s).status = Config.stOk ∨ (complete s).status = Config.stProtocolError := by
  rw [complete_status]
  split
  · exact .inl rfl
  · exact .inr rfl

/-- Settles O49, by the list of what the ten events can do; RESET goes to IDLE from anywhere. -/
theorem phaseGraph : Obligations.PhaseGraph := by
  unfold Obligations.PhaseGraph
  refine ⟨fun i s t hi h => ?_, fun s t c rest hin h => ?_⟩
  · have hev : isEvent i = true := by simpa [isEvent, or_assoc] using hi
    rcases event_cases hev h with
      ⟨hp, ⟨b, -, rfl⟩ | ⟨-, rfl⟩ | ⟨op, rfl, rfl⟩⟩ | ⟨hp, rfl, ⟨ht, rfl⟩ | ⟨-, -, rfl⟩⟩ | ⟨hp, rfl, rfl⟩ |
      ⟨hp, -, b, rfl, ⟨hlast, rfl⟩ | ⟨-, rfl⟩⟩ | ⟨hp, rfl, rfl⟩ |
      ⟨-, -, rfl⟩ | ⟨-, -, rfl⟩ | ⟨-, -, rfl⟩
    · exact .inl rfl
    · exact .inl rfl
    · exact .inr (.inl ⟨hp, rfl, readEvent_mem op⟩)
    · exact .inr (.inr (.inl ⟨hp, rfl, rfl, ht⟩))
    · exact .inl rfl
    · exact .inr (.inr (.inr (.inl ⟨hp, rfl, rfl, rfl⟩)))
    · exact .inr (.inr (.inr (.inr (.inl
        ⟨hp, complete_phase _, ⟨b, rfl⟩, hlast, complete_status_cases _⟩))))
    · exact .inl rfl
    · exact .inr (.inr (.inr (.inr (.inr ⟨hp, rfl, rfl, rfl⟩))))
    all_goals exact .inl rfl
  · cases (step_rst hin rfl).symm.trans h
    rfl

end Sys2Proof.Machine

/-! PROOFS. Receiving a response (42_frame_response.md R113 to R129): validation, extraction and scaling, the
last byte, the delivery of a whole response, the transaction against the codec, and no partial result. -/

namespace Sys2Proof.Machine

variable {s t u : State} {i : Instr} {op : BitVec 2} {b : Byte} {r : List Byte}

/-! ## Validation, extraction, scaling (R117, R118, R121) -/

theorem responseValid_iff : responseValid op r = true ↔
    byteAt r 0 = reqFc op ∧ byteAt r 1 = reqCount op ∧
      byteAt r (r.length - 2) = loByte (crc16 (r.take (r.length - 2))) ∧
      byteAt r (r.length - 1) = hiByte (crc16 (r.take (r.length - 2))) := by
  simp only [responseValid, Bool.and_eq_true, beq_iff_eq, and_assoc]

/-- Settles O32: the four comparisons of the definition; HUM and TEMP echo the same two bytes. -/
theorem responseValidIsFourEqualities : Obligations.ResponseValidIsFourEqualities := by
  unfold Obligations.ResponseValidIsFourEqualities
  exact ⟨fun _ _ _ => responseValid_iff, fun _ => rfl⟩

/-- Settles O33: `extract` reads the bytes by index; a field's value is that of `joinBytes`. -/
theorem extractedFields : Obligations.ExtractedFields := by
  unfold Obligations.ExtractedFields
  exact ⟨fun _ _ b2 b3 _ _ => ⟨rfl, rfl, joinBytes_toNat b2 b3⟩, fun _ _ _ _ _ _ _ _ => rfl,
    fun _ _ _ _ _ _ _ _ _ _ _ => rfl⟩

theorem phys_eq (raw : Word) : phys raw = (raw.toNat : Rat) / 10 := rfl

theorem phys_joinBytes (hi lo : Byte) :
    phys (joinBytes hi lo) = ((hi.toNat * 256 + lo.toNat : Nat) : Rat) / 10 := by
  rw [phys_eq, joinBytes_toNat]

/-- Settles O34: the division by 10 is exact in the rationals. -/
theorem scalingIsExact : Obligations.ScalingIsExact := by
  unfold Obligations.ScalingIsExact
  have hten (q : Rat) : q / 10 * 10 = q := div_mul_cancel₀ q (by norm_num)
  refine ⟨fun raw => hten _, fun hi lo => ?_, ?_, ?_⟩
  · rw [phys_joinBytes, hten]
  · calc phys 0x01C2 = ((450 : Nat) : Rat) / 10 := rfl
      _ = 45 := by norm_num
  · calc phys 0xFFFF = ((65535 : Nat) : Rat) / 10 := rfl
      _ = 13107 / 2 := by norm_num

/-! ## Corrupted responses (R129) -/

theorem word_eq_of_bytes {c d : Word} (hlo : loByte c = loByte d) (hhi : hiByte c = hiByte d) : c = d := by
  rw [← joinBytes_hi_lo c, ← joinBytes_hi_lo d, hlo, hhi]

theorem crcRun_injective (bytes : List Byte) : Function.Injective fun a => crcRun a bytes := by
  induction bytes with
  | nil => exact fun _ _ h => h
  | cons b rest ih => exact fun _ _ h => (crcByte_bijective b).1 (ih h)

/-- From one accumulator two bytes lead to different ones: XOR and `crc_byte` are injective. -/
theorem crcByte_injective_byte (a : Word) : Function.Injective (crcByte a) := by
  intro b c h
  rw [crcByte_eq_xor_zero a b, crcByte_eq_xor_zero a c] at h
  have hbytes : loByte (a ^^^ b.setWidth 16) = loByte (a ^^^ c.setWidth 16) :=
    congrArg loByte ((crcByte_bijective 0x00).1 h)
  simpa only [loByte_xor_setWidth, BitVec.xor_right_inj] using hbytes

theorem byteAt_eq_getElem {k : Nat} (hk : k < r.length) : byteAt r k = r[k] := by
  simp [byteAt, hk]

/-- One changed byte of a sequence always changes its CRC. -/
theorem crc16_set_ne {k : Nat} {x : Byte} (hk : k < r.length) (hx : x ≠ byteAt r k) :
    crc16 (r.set k x) ≠ crc16 r := by
  intro h
  have hr : crc16 r = crcRun (crcByte (crc16 (r.take k)) r[k]) (r.drop (k + 1)) := by
    conv_lhs => rw [← List.take_append_drop k r, List.drop_eq_getElem_cons hk, crc16_append, crcRun]
  rw [List.set_eq_take_append_cons_drop, if_pos hk, crc16_append, crcRun, hr] at h
  exact hx (byteAt_eq_getElem hk ▸ crcByte_injective_byte _ (crcRun_injective _ h))

theorem byteAt_set_of_ne {k j : Nat} {x : Byte} (h : k ≠ j) : byteAt (r.set k x) j = byteAt r j := by
  simp [byteAt, List.getElem?_set_ne h]

/-- Settles O42: the echoes are compared; a changed data byte changes the CRC but not the CRC bytes. -/
theorem corruptionRejected : Obligations.CorruptionRejected := by
  unfold Obligations.CorruptionRejected
  refine ⟨fun op r h => Bool.eq_false_iff.2 fun hv => ?_, fun op r k x hlen hv hlo hhi hx =>
    Bool.eq_false_iff.2 fun hv' => ?_⟩
  · obtain ⟨hfc, hcount, -⟩ := responseValid_iff.1 hv
    exact h.elim (· hfc) (· hcount)
  · obtain ⟨-, -, hcrcLo, hcrcHi⟩ := responseValid_iff.1 hv
    obtain ⟨-, -, hcrcLo', hcrcHi'⟩ := responseValid_iff.1 hv'
    rw [List.length_set, byteAt_set_of_ne (by omega), List.take_set] at hcrcLo' hcrcHi'
    have hk : k < (r.take (r.length - 2)).length := by rw [List.length_take]; omega
    have hbyte : byteAt (r.take (r.length - 2)) k = byteAt r k := by
      rw [byteAt_eq_getElem hk, byteAt_eq_getElem (by omega), List.getElem_take]
    exact crc16_set_ne hk (hbyte ▸ hx)
      (word_eq_of_bytes (hcrcLo'.symm.trans hcrcLo) (hcrcHi'.symm.trans hcrcHi))

/-! ## The end of a transaction (R115, R119) -/

/-- The fields a response delivers: those `extract` gives where it is valid, none where it is not. -/
def acceptedFields (op : BitVec 2) (r : List Byte) : RawFields :=
  if responseValid op r then extract op r else ⟨none, none, none⟩

theorem acceptedFields_valid (h : responseValid op r = true) : acceptedFields op r = extract op r :=
  if_pos h

theorem acceptedFields_invalid (h : responseValid op r = false) :
    acceptedFields op r = ⟨none, none, none⟩ := by
  rw [acceptedFields, h]
  rfl

/-- `s` with the end of the transaction that the response `r` gives it. -/
def endedBy (r : List Byte) (s : State) : State :=
  { s with
    phase := Config.phaseIdle
    status := if responseValid s.op r then Config.stOk else Config.stProtocolError
    hum := (acceptedFields s.op r).hum.getD 0
    humV := (acceptedFields s.op r).hum.isSome
    temp := (acceptedFields s.op r).temp.getD 0
    tempV := (acceptedFields s.op r).temp.isSome
    info := (acceptedFields s.op r).info.getD 0
    infoV := (acceptedFields s.op r).info.isSome }

theorem complete_eq_endedBy (s : State) : complete s = endedBy (received s) s := by
  cases hv : responseValid s.op (received s) with
  | false => simp [complete, endedBy, acceptedFields, hv, finish, clearResults]
  | true => simp [complete, endedBy, acceptedFields, hv, writeResults, humValid, tempValid, infoValid]

/-! ## One byte (R113) -/

/-- The operand byte is a summand of an event word (R65). -/
theorem eventWord_eq_add (opc : BitVec 4) (x : Byte) :
    eventWord opc x = eventWord opc 0 + x.setWidth 12 := by
  refine BitVec.eq_of_toNat_eq ?_
  have hzero : (0 : Byte).toNat = 0 := rfl
  have hopc := opc.isLt
  have hx := x.isLt
  rw [eventWord_toNat, BitVec.toNat_add, BitVec.toNat_setWidth, eventWord_toNat, hzero]
  omega

theorem encode_tRxbyte (b : Byte) : encode (.tRxbyte b) = .event (0xA00 + b.setWidth 12) :=
  congrArg Code.event (eventWord_eq_add 0xA b)

/-- Settles O29: the state is `storeByte b s`, completed if the byte is the last. -/
theorem rxbyteStoresByte : Obligations.RxbyteStoresByte := by
  unfold Obligations.RxbyteStoresByte
  refine fun b s hmem => ⟨fun hp hr => ?_, fun hp => exec_tRxbyte_refused hp b, encode_tRxbyte b⟩
  have hr11 : s.ridx.toNat < 11 := hr.trans_le (respLen_le s.op)
  refine ⟨storeByte b s, rfl, ridx_succ hr11, Memory.read_write_same hmem _ b,
    fun a ha => Memory.read_write_other ha b, ?_⟩
  split
  · exact exec_tRxbyte_last hp hr11 ‹_› b
  · exact exec_tRxbyte_more hp hr11 ‹_› b

/-- The last byte of a response is stored and counted, and not absorbed (R116). -/
theorem storeByte_last (hlast : s.ridx.toNat + 1 = respLen s.op) (b : Byte) :
    storeByte b s = { s with rbuf := Memory.write s.rbuf s.ridx.toNat b, ridx := rlen s.op } := by
  have hr11 : s.ridx.toNat < 11 := hlast.le.trans (respLen_le s.op)
  have hridx : s.ridx + 1#4 = rlen s.op := BitVec.eq_of_toNat_eq ((ridx_succ hr11).trans hlast)
  have hcrc : ¬ s.ridx.toNat < crcCheckLen s.op := by
    have hadd := crcCheckLen_add s.op
    omega
  rw [storeByte, if_neg hcrc, hridx]

theorem received_storeByte_last (hmem : Memory.wf s.rbuf = true) (hlast : s.ridx.toNat + 1 = respLen s.op)
    (b : Byte) : received (storeByte b s) = memBytes s.rbuf 0 s.ridx.toNat ++ [b] := by
  rw [received, storeByte_op, ← hlast]
  exact memBytes_write_succ hmem _ b

theorem exec_tRxbyte_ends (hmem : Memory.wf s.rbuf = true) (hp : s.phase = Config.phaseRx)
    (hlast : s.ridx.toNat + 1 = respLen s.op) (b : Byte) :
    exec (.tRxbyte b) s = .next (endedBy (memBytes s.rbuf 0 s.ridx.toNat ++ [b])
      { s with rbuf := Memory.write s.rbuf s.ridx.toNat b, ridx := rlen s.op }) := by
  rw [exec_tRxbyte_last hp (hlast.le.trans (respLen_le s.op)) hlast, complete_eq_endedBy,
    received_storeByte_last hmem hlast, storeByte_last hlast]

/-- Settles O30: the end is `endedBy` the bytes in `RBUF`; the table of R119 is `extract` by `OP`. -/
theorem lastByteCompletesTransaction : Obligations.LastByteCompletesTransaction := by
  unfold Obligations.LastByteCompletesTransaction
  intro b s hmem hp hlast
  refine ⟨_, _, exec_tRxbyte_ends hmem hp hlast b, rfl, received_storeByte_last hmem hlast b,
    fun a ha => Memory.read_write_other (by omega) b, fun hv => ?_, fun hv => ?_⟩
  · simp only [endedBy, acceptedFields_valid hv, hv]
    rcases op_cases s.op with h | h | h | h <;> simp [h, extract]
  · simp [endedBy, acceptedFields_invalid hv, hv]

/-- In a state that meets the invariants the CRC over the response is the one in `ACC` (R36 item 3). -/
theorem responseValid_storeByte_last (hs : s.Inv) (hp : s.phase = Config.phaseRx)
    (hlast : s.ridx.toNat + 1 = respLen s.op) (b : Byte) :
    responseValid s.op (received (storeByte b s)) = true ↔
      Memory.read s.rbuf 0 = reqFc s.op ∧ Memory.read s.rbuf 1 = reqCount s.op ∧
        Memory.read s.rbuf (respLen s.op - 2) = loByte s.acc ∧ b = hiByte s.acc := by
  have h6 := respLen_pos s.op
  have hcheck := crcCheckLen_add s.op
  obtain ⟨-, -, hacc⟩ := hs.in_rx hp
  rw [Nat.min_eq_right (by omega)] at hacc
  have hlen : (received (storeByte b s)).length = respLen s.op := memBytes_length ..
  have hbyte {k : Nat} (hk : k < respLen s.op) :
      byteAt (received (storeByte b s)) k = Memory.read (storeByte b s).rbuf k := by
    rw [received, storeByte_op, byteAt_memBytes hk, Nat.zero_add]
  have hread {k : Nat} (hk : k < s.ridx.toNat) :
      byteAt (received (storeByte b s)) k = Memory.read s.rbuf k :=
    (hbyte (by omega)).trans (Memory.read_write_other hk.ne b)
  have hend : byteAt (received (storeByte b s)) (respLen s.op - 1) = b := by
    rw [hbyte (by omega), ← hlast, Nat.add_sub_cancel]
    exact Memory.read_write_same hs.memory _ b
  have hcrc : crc16 ((received (storeByte b s)).take (respLen s.op - 2)) = s.acc := by
    rw [received, storeByte_op, memBytes_take _ _ (by omega), storeByte_rbuf, memBytes_write (by omega), hacc,
      ← hcheck, Nat.add_sub_cancel]
  rw [responseValid_iff, hlen, hcrc, hread (by omega), hread (by omega), hread (by omega), hend]

theorem complete_status_ok_iff (s : State) :
    (complete s).status = Config.stOk ↔ responseValid s.op (received s) = true := by
  rw [complete_status]
  split <;> simp [*]

/-- Settles O31: the verdict is that of `responseValid_storeByte_last`; a CRC byte is not absorbed. -/
theorem verdictComparesWithAccumulator : Obligations.VerdictComparesWithAccumulator := by
  unfold Obligations.VerdictComparesWithAccumulator
  intro b s hs hp hlast
  have hcheck := crcCheckLen_add s.op
  obtain ⟨-, -, hacc⟩ := hs.in_rx hp
  rw [Nat.min_eq_right (by omega), Nat.eq_sub_of_add_eq hcheck] at hacc
  refine ⟨_, exec_tRxbyte_last hp (hlast.le.trans (respLen_le s.op)) hlast b, ?_,
    fun h => (complete_status_cases _).resolve_left h, ?_, hacc⟩
  · exact (complete_status_ok_iff _).trans (responseValid_storeByte_last hs hp hlast b)
  · rw [complete_acc, storeByte_last hlast]

/-! ## A response as a whole (R113, R116, R117) -/

/-- `t` is `s`, a state in which the read begins, once the bytes `r` are stored. -/
structure Stored (s : State) (r : List Byte) (t : State) : Prop where
  frame : t = { s with rbuf := t.rbuf, acc := t.acc, ridx := t.ridx }
  memory : Memory.wf t.rbuf = true
  ridx : t.ridx.toNat = r.length
  bytes : memBytes t.rbuf 0 r.length = r
  acc : t.acc = crc16 (r.take (crcCheckLen s.op))

theorem Stored.op_eq (h : Stored s r t) : t.op = s.op := by rw [h.frame]

theorem Stored.phase_eq (h : Stored s r t) : t.phase = s.phase := by rw [h.frame]

theorem Stored.tidx_eq (h : Stored s r t) : t.tidx = s.tidx := by rw [h.frame]

theorem Stored.fault_eq (h : Stored s r t) : t.fault = s.fault := by rw [h.frame]

theorem stored_nil (hs : s.Inv) (hp : s.phase = Config.phaseRx) (h0 : s.ridx = 0#4) : Stored s [] s where
  frame := rfl
  memory := hs.memory
  ridx := by simp [h0]
  bytes := rfl
  acc := by
    obtain ⟨-, -, hacc⟩ := hs.in_rx hp
    simpa [h0, memBytes] using hacc

theorem Stored.append (h : Stored s r t) (hr : r.length < 11) (b : Byte) :
    Stored s (r ++ [b]) (storeByte b t) where
  frame := congrArg (fun v : State => { v with
    rbuf := (storeByte b t).rbuf, acc := (storeByte b t).acc,
    ridx := (storeByte b t).ridx }) h.frame
  memory := Memory.write_wf (h.ridx ▸ hr) h.memory b
  ridx := by
    rw [storeByte_ridx, ridx_succ (h.ridx ▸ hr), h.ridx, List.length_append, List.length_singleton]
  bytes := by
    rw [List.length_append, List.length_singleton, storeByte_rbuf, h.ridx, memBytes_write_succ h.memory,
      h.bytes]
  acc := by
    rw [storeByte_acc, h.ridx, h.op_eq, h.acc]
    split
    · rename_i hlt
      rw [List.take_of_length_le hlt.le, List.take_of_length_le (by simpa using hlt), crc16_append_byte]
    · rename_i hge
      rw [List.take_append_of_le_length (by omega)]

/-- Fewer bytes than the response has are stored, and the block goes on waiting. -/
theorem readBytes_stores (h0 : Stored s [] s) (hp : s.phase = Config.phaseRx)
    (hlen : r.length < respLen s.op) : ∃ t, readBytes r s = .next t ∧ Stored s r t := by
  induction r using List.reverseRecOn with
  | nil => exact ⟨s, rfl, h0⟩
  | append_singleton r b ih =>
    rw [List.length_append, List.length_singleton] at hlen
    obtain ⟨t, ht, hst⟩ := ih (by omega)
    have hr11 : r.length < 11 := by have hle := respLen_le s.op; omega
    refine ⟨_, ?_, hst.append hr11 b⟩
    rw [readBytes_append, ht]
    refine andThen_ret.trans (exec_tRxbyte_more (hst.phase_eq.trans hp) (hst.ridx ▸ hr11) ?_ b)
    rw [hst.ridx, hst.op_eq]
    exact hlen.ne

/-- As many bytes as the response has are stored, and the last one ends the transaction. -/
theorem readBytes_whole (h0 : Stored s [] s) (hp : s.phase = Config.phaseRx)
    (hlen : r.length = respLen s.op) : ∃ u, readBytes r s = .next (endedBy r u) ∧ Stored s r u := by
  rcases List.eq_nil_or_concat' r with rfl | ⟨init, b, rfl⟩
  · have h6 := respLen_pos s.op
    rw [List.length_nil] at hlen
    omega
  · rw [List.length_append, List.length_singleton] at hlen
    obtain ⟨t, ht, hst⟩ := readBytes_stores h0 hp (r := init) (by omega)
    have hr11 : init.length < 11 := by have hle := respLen_le s.op; omega
    have hu := hst.append hr11 b
    have hrec : received (storeByte b t) = init ++ [b] := by
      rw [received, hu.op_eq, ← hlen]
      simpa using hu.bytes
    refine ⟨_, ?_, hu⟩
    rw [readBytes_append, ht, ← hrec, ← complete_eq_endedBy]
    exact andThen_ret.trans (exec_tRxbyte_last (hst.phase_eq.trans hp) (hst.ridx ▸ hr11)
      (by rw [hst.ridx, hst.op_eq, hlen]) b)

/-! ## The response rows (R71, R74; log 7) -/

/-- A frame with the right echoes is valid exactly with its own CRC. -/
theorem responseValid_responseFrame {covered : List Byte} (hlen : 2 ≤ covered.length)
    (hfc : byteAt covered 0 = reqFc op) (hcount : byteAt covered 1 = reqCount op) (crc : Word) :
    responseValid op (responseFrame covered crc) = decide (crc = crc16 covered) := by
  have hbyte (k : Nat) (hk : k < covered.length) :
      byteAt (responseFrame covered crc) k = byteAt covered k := by
    simp [byteAt, responseFrame, List.getElem?_append_left hk]
  have hlo : byteAt (responseFrame covered crc) covered.length = loByte crc := by
    simp [byteAt, responseFrame, crcWire]
  have hhi : byteAt (responseFrame covered crc) (covered.length + 1) = hiByte crc := by
    simp [byteAt, responseFrame, crcWire]
  have htake : (responseFrame covered crc).take covered.length = covered := List.take_left
  have hflen : (responseFrame covered crc).length = covered.length + 2 := List.length_append
  rw [Bool.eq_iff_iff, responseValid_iff, decide_eq_true_eq, hflen, Nat.add_sub_cancel, htake,
    hbyte 0 (by omega), hbyte 1 (by omega), hlo, Nat.add_succ_sub_one, hhi]
  refine ⟨fun ⟨_, _, h1, h2⟩ => word_eq_of_bytes h1 h2, fun h => ?_⟩
  rw [h]
  exact ⟨hfc, hcount, rfl, rfl⟩

/-- A response row, shown to a block that awaits the response of its operation: `f` is what it carries. -/
theorem exec_responseFrame {covered : List Byte} {crc : Word} {f : RawFields}
    (hi : deliveredBytes i = responseFrame covered crc) (hs : s.Inv) (hp : s.phase = Config.phaseRx)
    (h0 : s.ridx = 0#4) (hop : s.op = op) (hlen : covered.length = crcCheckLen op)
    (hfc : byteAt covered 0 = reqFc op) (hcount : byteAt covered 1 = reqCount op)
    (hf : extract op (responseFrame covered crc) = f) :
    ∃ t, exec i s = .next t ∧ memBytes t.rbuf 0 (respLen op) = covered ++ crcWire crc ∧
      (∀ a, respLen op ≤ a → Memory.read t.rbuf a = Memory.read s.rbuf a) ∧
      t = { s with
            rbuf := t.rbuf, acc := crc16 covered, ridx := rlen op, phase := 0#2
            status := if crc = crc16 covered then 1 else 2
            hum := if crc = crc16 covered then f.hum.getD 0 else 0
            humV := decide (crc = crc16 covered) && f.hum.isSome
            temp := if crc = crc16 covered then f.temp.getD 0 else 0
            tempV := decide (crc = crc16 covered) && f.temp.isSome
            info := if crc = crc16 covered then f.info.getD 0 else 0
            infoV := decide (crc = crc16 covered) && f.info.isSome } := by
  subst hop
  have hcheck := crcCheckLen_add s.op
  have h6 := respLen_pos s.op
  have hflen : (responseFrame covered crc).length = respLen s.op := by
    rw [responseFrame, List.length_append, hlen]
    exact hcheck
  obtain ⟨u, hread, hu⟩ := readBytes_whole (stored_nil hs hp h0) hp hflen
  have hexec : exec i s = .next (endedBy (responseFrame covered crc) u) := by
    rw [exec_delivers (hi ▸ List.ne_nil_of_length_pos (by omega)), hi, hread]
  have hridx : u.ridx = rlen s.op := BitVec.eq_of_toNat_eq (hu.ridx.trans hflen)
  have hacc : u.acc = crc16 covered := by
    rw [hu.acc, ← hlen, responseFrame, List.take_left]
  refine ⟨_, hexec, hflen ▸ hu.bytes, fun a ha => readBytes_frame hread (.inr ?_), ?_⟩
  · rw [hflen, h0]
    simpa using ha
  · have hvalid := responseValid_responseFrame (by omega) hfc hcount crc
    rw [hu.frame, hridx, hacc]
    simp only [endedBy, acceptedFields, hvalid, hf]
    by_cases hc : crc = crc16 covered <;> simp [hc]

/-! What the four rows carry (R77, R118). -/

theorem extract_respHum (h crc : Word) :
    extract Config.opHum (responseFrame (coveredField h) crc) = ⟨some h, none, none⟩ :=
  congrArg (fun w => RawFields.mk (some w) none none) (joinBytes_hi_lo h)

theorem extract_respTemp (v crc : Word) :
    extract Config.opTemp (responseFrame (coveredField v) crc) = ⟨none, some v, none⟩ :=
  congrArg (fun w => RawFields.mk none (some w) none) (joinBytes_hi_lo v)

theorem extract_respBoth (h v crc : Word) :
    extract Config.opBoth (responseFrame (coveredBoth h v) crc) = ⟨some h, some v, none⟩ :=
  congrArg₂ (fun w x => RawFields.mk (some w) (some x) none) (joinBytes_hi_lo h) (joinBytes_hi_lo v)

theorem extract_respInfo (d : InfoWord) (crc : Word) :
    extract Config.opInfo (responseFrame (coveredInfo d) crc) = ⟨none, none, some d⟩ :=
  congrArg (fun w => RawFields.mk none none (some w)) (joinInfo_infoByte d)

/-- A delivery of at least one byte outside phase RX records F_UNEXPECTED once and changes nothing else. -/
theorem readBytes_refused (hr : r ≠ []) (hp : s.phase ≠ Config.phaseRx) :
    readBytes r s = .next (raiseFault Config.fUnexpected s) := by
  induction r generalizing s with
  | nil => exact absurd rfl hr
  | cons b rest ih =>
    have hone : execTRxbyte b s = .next (raiseFault Config.fUnexpected s) := exec_tRxbyte_refused hp b
    rw [readBytes, hone]
    rcases eq_or_ne rest [] with rfl | hrest
    · rfl
    · refine (ih hrest (s := raiseFault Config.fUnexpected s) hp).trans (congrArg _ ?_)
      exact raiseFault_raiseFault _ _ s (by decide)

/-- Settles O38: each row is the frame of its covered bytes, valid exactly with their CRC. -/
theorem responseFramesComplete : Obligations.ResponseFramesComplete := by
  unfold Obligations.ResponseFramesComplete
  have hclear {s : State} (hs : s.Inv) (hp : s.phase = 2#2) : ResultsClear s :=
    (hs.busy_clear (by simp [hp])).2
  have hrlen : rlen 0#2 = 6#4 ∧ rlen 1#2 = 6#4 ∧ rlen 2#2 = 8#4 ∧ rlen 3#2 = 11#4 := by decide
  refine ⟨fun h crc s hs hp h0 hop => ?_, fun v crc s hs hp h0 hop => ?_, fun h v crc s hs hp h0 hop => ?_,
    fun d crc s hs hp h0 hop => ?_, fun i s hi hp => ?_⟩
  · obtain ⟨t, hexec, hbytes, habove, ht⟩ := exec_responseFrame (i := .respHum h crc) rfl hs hp h0 hop
      rfl rfl rfl (extract_respHum h crc)
    obtain ⟨-, -, htemp, htempV, hinfo, hinfoV⟩ := hclear hs hp
    exact ⟨t, hexec, hbytes, habove, ht.trans (by simp [hrlen, htemp, htempV, hinfo, hinfoV])⟩
  · obtain ⟨t, hexec, hbytes, habove, ht⟩ := exec_responseFrame (i := .respTemp v crc) rfl hs hp h0 hop
      rfl rfl rfl (extract_respTemp v crc)
    obtain ⟨hhum, hhumV, -, -, hinfo, hinfoV⟩ := hclear hs hp
    exact ⟨t, hexec, hbytes, habove, ht.trans (by simp [hrlen, hhum, hhumV, hinfo, hinfoV])⟩
  · obtain ⟨t, hexec, hbytes, habove, ht⟩ := exec_responseFrame (i := .respBoth h v crc) rfl hs hp h0 hop
      rfl rfl rfl (extract_respBoth h v crc)
    obtain ⟨-, -, -, -, hinfo, hinfoV⟩ := hclear hs hp
    exact ⟨t, hexec, hbytes, habove, ht.trans (by simp [hrlen, hinfo, hinfoV])⟩
  · obtain ⟨t, hexec, hbytes, -, ht⟩ := exec_responseFrame (i := .respInfo d crc) rfl hs hp h0 hop
      rfl rfl rfl (extract_respInfo d crc)
    obtain ⟨hhum, hhumV, htemp, htempV, -, -⟩ := hclear hs hp
    exact ⟨t, hexec, hbytes, ht.trans (by simp [hrlen, hhum, hhumV, htemp, htempV])⟩
  · have hne : deliveredBytes i ≠ [] := fun h => by simp [h] at hi
    rw [exec_delivers hne, readBytes_refused hne hp]
    rfl

/-! ## The transaction (R128) -/

/-- The block, from IDLE, once the request of `op` is sent: it awaits the first response byte. -/
def awaiting (op : BitVec 2) (s : State) : State :=
  { startRead op s with tidx := 3#2, phase := Config.phaseRx }

theorem awaiting_inv (h : Memory.wf s.rbuf = true) (op : BitVec 2) : (awaiting op s).Inv :=
  (startRead_inv h op).beginRx rfl

theorem stored_awaiting (h : Memory.wf s.rbuf = true) (op : BitVec 2) :
    Stored (awaiting op s) [] (awaiting op s) :=
  stored_nil (awaiting_inv h op) rfl rfl

/-- A script that goes on after a whole request, shown to a block in IDLE. -/
theorem runScript_request_then {is : List Instr} (his : ∀ i ∈ is, isEvent i = true)
    (hp : s.phase = Config.phaseIdle) (op : BitVec 2) :
    runScript (requestScript op 3 ++ is.map shown) s =
      execAll is (awaiting op { s with inputs := [] }) := by
  rw [runScript_requestScript_append his hp, execAll_append, ← takeRequest_eq_execAll,
    takeRequest_whole rfl rfl]
  rfl

theorem runScript_transaction (hp : s.phase = Config.phaseIdle) (op : BitVec 2) (r : List Byte) :
    runScript (transactionScript op r) s = readBytes r (awaiting op { s with inputs := [] }) := by
  have hrun := runScript_request_then (is := r.map .tRxbyte) (by simp [isEvent, isRxEvent]) hp op
  rwa [List.map_map, ← readBytes_eq_execAll] at hrun

theorem runScript_transaction_failed (hp : s.phase = Config.phaseIdle) (op : BitVec 2) (r : List Byte) :
    runScript (transactionScript op r ++ [shown .tRxerr]) s =
      andThen (readBytes r (awaiting op { s with inputs := [] })) (exec .tRxerr) := by
  have hrun := runScript_request_then (is := r.map .tRxbyte ++ [.tRxerr])
    (by simp [isEvent, isRxEvent, or_imp, forall_and]) hp op
  rw [List.map_append, List.map_map, execAll_append, ← readBytes_eq_execAll, ← List.append_assoc] at hrun
  exact hrun.trans (congrArg _ (funext fun _ => andThen_ret))

/-- The end of a transaction from IDLE whose response is `r`. -/
theorem runScript_transaction_whole (hs : s.Inv) (hp : s.phase = Config.phaseIdle)
    (hlen : r.length = respLen op) : ∃ u, runScript (transactionScript op r) s = .next (endedBy r u) ∧
      Stored (awaiting op { s with inputs := [] }) r u := by
  rw [runScript_transaction hp]
  exact readBytes_whole (stored_awaiting (s := { s with inputs := [] }) hs.memory op) rfl hlen

/-! ### No event of a run that ends without a fault faults -/

theorem execAll_faultKept {is : List Instr} (h : execAll is s = .next t) : FaultKeptOrRecorded s t := by
  induction is generalizing s with
  | nil => cases h; exact .inl rfl
  | cons i is ih =>
    obtain ⟨u, hu, ht⟩ := andThen_next.1 h
    exact (exec_inputs_fault hu).2.trans (ih ht)

/-- A fault is never taken back, so `FAULT` as before at the end was so all the way. -/
theorem FaultKeptOrRecorded.eq_of_eq (hsu : FaultKeptOrRecorded s u) (hut : FaultKeptOrRecorded u t)
    (h : t.fault = s.fault) : u.fault = s.fault := by
  rcases hsu with hsu | ⟨h0, hsu⟩
  · exact hsu
  · rcases hut with hut | ⟨hu0, -⟩
    · exact hut.symm.trans h
    · exact hu0.trans h0.symm

theorem runScript_take {is : List Instr} (his : ∀ i ∈ is, isEvent i = true)
    (h : runScript (is.map shown) s = .next t) (hfault : t.fault = s.fault) (k : Nat) :
    ∃ u, runScript ((is.map shown).take k) s = .next u ∧ u.fault = s.fault := by
  rw [runScript_shown his, ← List.take_append_drop k is, execAll_append] at h
  obtain ⟨u, hu, ht⟩ := andThen_next.1 h
  refine ⟨u, ?_, (execAll_faultKept hu).eq_of_eq (execAll_faultKept ht) hfault⟩
  rw [← List.map_take, runScript_shown fun i hi => his i (List.mem_of_mem_take hi), hu]

/-- The events of a transaction. -/
def transactionEvents (op : BitVec 2) (r : List Byte) : List Instr :=
  readEvent op :: (List.replicate 3 .tTxack ++ r.map .tRxbyte)

theorem transactionScript_eq_map (op : BitVec 2) (r : List Byte) :
    transactionScript op r = (transactionEvents op r).map shown := by
  simp [transactionScript, requestScript, readScript, transactionEvents]

theorem transactionEvents_isEvent : ∀ i ∈ transactionEvents op r, isEvent i = true := by
  refine List.forall_mem_cons.2 ⟨isEvent_readEvent op, ?_⟩
  simp [isEvent, isTxEvent, isRxEvent, or_imp, forall_and]

theorem transactionScript_take (op : BitVec 2) (r : List Byte) {k : Nat} (hk : k ≤ 3) :
    (transactionScript op r).take (k + 1) = requestScript op k := by
  have hlen : k + 1 ≤ (requestScript op 3).length := by
    rw [requestScript, List.length_cons, List.length_replicate]
    omega
  rw [transactionScript, List.take_append_of_le_length hlen, requestScript, List.take_succ_cons,
    List.take_replicate, Nat.min_eq_left hk, requestScript]

/-- Settles O40: the end is `endedBy r`; `FAULT` is as before there, and so at every point. -/
theorem transactionRefinesCodec : Obligations.TransactionRefinesCodec := by
  unfold Obligations.TransactionRefinesCodec
  intro s op r hs hp hlen
  obtain ⟨u, hrun, hu⟩ := runScript_transaction_whole hs hp (hlen.trans (respLen_eq_count op).symm)
  have hop : u.op = op := hu.op_eq
  have hfault : (endedBy r u).fault = s.fault := hu.fault_eq
  refine ⟨fun k _ => ?_, fun k hk => ?_, _, hrun, rfl, hop, hu.tidx_eq, hu.ridx, ?_,
    hfault, fun hv => ?_, fun hv => ?_⟩
  · rw [transactionScript_eq_map] at hrun ⊢
    exact runScript_take transactionEvents_isEvent hrun hfault k
  · obtain ⟨t, -, ht, -, hbyte, -⟩ := (writeAsAWhole s op hp).1 k hk
    exact ⟨t, transactionScript_take op r hk.le ▸ ht, hbyte⟩
  · have hcheck : crcCheckLen op = r.length - 2 := by
      have hadd := crcCheckLen_add op
      have hcount := respLen_eq_count op
      omega
    exact hcheck ▸ hu.acc
  · simp [endedBy, hop, hv, acceptedFields_valid hv]
  · simp [endedBy, hop, hv, acceptedFields_invalid hv, ResultsClear]

/-- After a transport error there is no result, and the block is in IDLE, where transport events fault. -/
theorem finish_transportError (u : State) :
    (finish Config.stTransportError u).phase = 0#2 ∧ (finish Config.stTransportError u).status = 3#2 ∧
    ResultsClear (finish Config.stTransportError u) ∧
    ∀ i, isTxEvent i = true ∨ isRxEvent i = true → exec i (finish Config.stTransportError u) =
      .next (raiseFault Config.fUnexpected (finish Config.stTransportError u)) := by
  refine ⟨rfl, rfl, resultsClear_clearResults u, fun i hi => ?_⟩
  rcases hi with hi | hi
  · exact exec_tx_refused hi (by simp)
  · exact exec_rx_refused hi (by simp)

/-- Settles O41: both scripts end in `finish` with ST_TRANSPORT_ERROR. -/
theorem transactionEndsOnTransportError : Obligations.TransactionEndsOnTransportError := by
  unfold Obligations.TransactionEndsOnTransportError
  intro s op hs hp script hscript
  have hend : ∃ u, runScript script s = .next (finish Config.stTransportError u) ∧ u.op = op ∧
      u.fault = s.fault := by
    rcases hscript with ⟨k, hk, rfl⟩ | ⟨r, hlen, rfl⟩
    · exact ⟨_, runScript_request_failed hp op hk, rfl, rfl⟩
    · obtain ⟨u, hread, hu⟩ := readBytes_stores (stored_awaiting (s := { s with inputs := [] }) hs.memory op)
        rfl (hlen.trans_eq (respLen_eq_count op).symm)
      refine ⟨u, ?_, hu.op_eq, hu.fault_eq⟩
      rw [runScript_transaction_failed hp, hread]
      exact exec_tRxerr_admitted hu.phase_eq
  obtain ⟨u, hrun, hop, hfault⟩ := hend
  obtain ⟨hphase, hstatus, hclear, hrefused⟩ := finish_transportError u
  exact ⟨_, hrun, hphase, hop, hstatus, hclear, hfault, hrefused⟩

/-! ## The source's examples (R129) -/

/-- A transaction answered by the frame of `covered` with its own CRC: `f` is what the frame carries. -/
theorem runScript_transaction_ok {covered : List Byte} {f : RawFields} (hs : s.Inv)
    (hp : s.phase = Config.phaseIdle) (hlen : covered.length = crcCheckLen op)
    (hfc : byteAt covered 0 = reqFc op) (hcount : byteAt covered 1 = reqCount op)
    (hf : extract op (responseFrame covered (crc16 covered)) = f) :
    ∃ t, runScript (transactionScript op (responseFrame covered (crc16 covered))) s = .next t ∧
      t.status = 1#2 ∧ t.hum = f.hum.getD 0 ∧ t.humV = f.hum.isSome ∧ t.temp = f.temp.getD 0 ∧
      t.tempV = f.temp.isSome := by
  have h6 := respLen_pos op
  have hcheck := crcCheckLen_add op
  have hvalid := responseValid_responseFrame (by omega) hfc hcount (crc16 covered)
  obtain ⟨u, hrun, hu⟩ := runScript_transaction_whole hs hp (op := op)
    (r := responseFrame covered (crc16 covered)) (by rw [responseFrame, List.length_append, hlen]; exact hcheck)
  have hop : u.op = op := hu.op_eq
  exact ⟨_, hrun, by simp [endedBy, acceptedFields, hop, hvalid, hf]⟩

/-- The CRC of the source's humidity frame, one byte at a time. -/
theorem crc16_humidityFrame : crc16 [0x03, 0x02, 0x01, 0xC2] = 0xA121 := by
  have h1 := crc16_append_byte_of_eq (xs := []) (b := 0x03) (c := 0x41FF) rfl (by decide)
  have h2 := crc16_append_byte_of_eq (b := 0x02) (c := 0x8180) h1 (by decide)
  have h3 := crc16_append_byte_of_eq (b := 0x01) (c := 0x6041) h2 (by decide)
  exact crc16_append_byte_of_eq (b := 0xC2) h3 (by decide)

/-- Settles O43: both are transactions answered by a frame with its own CRC. -/
theorem sourceExamples : Obligations.SourceExamples := by
  unfold Obligations.SourceExamples
  refine fun s hs hp => ⟨fun hi lo => ?_, crc16_humidityFrame, ?_⟩
  · obtain ⟨t, hrun, hstatus, -, hhumV, htemp, htempV⟩ := runScript_transaction_ok (op := Config.opTemp)
      (covered := [0x03, 0x02, hi, lo]) hs hp rfl rfl rfl rfl
    exact ⟨t, hrun, hstatus, htempV, htemp, hhumV, htemp ▸ phys_joinBytes hi lo⟩
  · obtain ⟨t, hrun, hstatus, hhum, hhumV, -, htempV⟩ := runScript_transaction_ok (op := Config.opHum)
      (covered := [0x03, 0x02, 0x01, 0xC2]) hs hp rfl rfl rfl rfl
    rw [crc16_humidityFrame] at hrun
    refine ⟨t, hrun, hstatus, hhumV, hhum, htempV, ?_⟩
    obtain ⟨-, -, h45, -⟩ := scalingIsExact
    exact hhum ▸ h45

/-! ## No partial result (R124) -/

theorem resultsBacked_of_clear (h : ResultsClear s) : s.ResultsBacked := by
  obtain ⟨-, hhumV, -, htempV, -, hinfoV⟩ := h
  exact ⟨fun h => absurd h (by simp [hhumV]), fun h => absurd h (by simp [htempV]),
    fun h => absurd h (by simp [hinfoV])⟩

/-- A valid result is one that `extract` gave, of a response that passed validation. -/
theorem complete_resultsBacked (s : State) : (complete s).ResultsBacked := by
  have hsome {α : Type} {o : Option α} (a : α) (h : o.isSome = true) : o = some (o.getD a) := by
    obtain ⟨b, rfl⟩ := Option.isSome_iff_exists.1 h
    rfl
  cases hv : responseValid s.op (received s) with
  | false =>
    rw [complete_eq_endedBy]
    exact resultsBacked_of_clear (by simp [endedBy, acceptedFields_invalid hv, ResultsClear])
  | true =>
    have hend : complete s = writeResults (finish Config.stOk s) := if_pos hv
    constructor <;> rw [complete_op, complete_received, hend]
    all_goals exact fun h => ⟨hv, by simpa using hsome 0 h⟩

/-- Every event keeps it: only the last byte of a response makes a result valid. -/
theorem event_keeps_resultsBacked (hi : isEvent i = true) (hs : s.Inv) (h : s.ResultsBacked)
    (he : exec i s = .next t) : t.ResultsBacked := by
  have hbad : (finish Config.stTransportError s).ResultsBacked :=
    resultsBacked_of_clear (resultsClear_clearResults s)
  rcases event_cases hi he with
    ⟨hp, ⟨b, -, rfl⟩ | ⟨-, rfl⟩ | ⟨op, -, rfl⟩⟩ | ⟨hp, -, ⟨-, rfl⟩ | ⟨-, -, rfl⟩⟩ | ⟨-, -, rfl⟩ |
    ⟨hp, -, b, -, ⟨-, rfl⟩ | ⟨-, rfl⟩⟩ | ⟨-, -, rfl⟩ |
    ⟨-, -, rfl⟩ | ⟨-, -, rfl⟩ | ⟨-, -, rfl⟩
  · exact ⟨h.hum, h.temp, h.info⟩
  · exact ⟨h.hum, h.temp, h.info⟩
  · exact resultsBacked_of_clear (resultsClear_clearResults s)
  · exact ⟨h.hum, h.temp, h.info⟩
  · exact ⟨h.hum, h.temp, h.info⟩
  · exact hbad
  · exact complete_resultsBacked _
  · exact resultsBacked_of_clear (hs.busy_clear (by simp [hp])).2
  · exact hbad
  all_goals exact ⟨h.hum, h.temp, h.info⟩

theorem step_keeps_resultsBacked (hs : s.Inv) (h : s.ResultsBacked) (he : step s = .next t) :
    t.ResultsBacked := by
  refine (step_keeps (P := fun u => u.Inv ∧ u.ResultsBacked) ?_ ?_ ?_ ?_ ⟨hs, h⟩ he).2
  · exact fun u ins ⟨hu, hb⟩ => ⟨hu.withInputs ins, hb.hum, hb.temp, hb.info⟩
  · exact fun u ⟨hu, _⟩ => resetMeetsInvariant.2 u hu.memory
  · exact fun u ⟨hu, hb⟩ => ⟨hu.raiseFault _, hb.hum, hb.temp, hb.info⟩
  · exact fun j hj u v ⟨hu, hb⟩ hv => ⟨event_keeps_inv hj hu hv, event_keeps_resultsBacked hj hu hb hv⟩

/-- Settles O47: the step lemma; the rest is items 5 and 6 of R36. -/
theorem noPartialResult : Obligations.NoPartialResult := by
  unfold Obligations.NoPartialResult
  refine ⟨fun s t => step_keeps_resultsBacked, fun s hs => ⟨fun hop => ?_, fun hst => ?_⟩⟩
  · by_cases hok : s.status = Config.stOk
    · obtain ⟨-, -, hhum, htemp, -⟩ := hs.ok_result hok
      rw [Bool.eq_iff_iff, hhum, htemp]
      simp [hop]
    · obtain ⟨-, hhumV, -, htempV, -⟩ := hs.not_ok_clear hok
      rw [hhumV, htempV]
  · obtain ⟨hhum, hhumV, htemp, htempV, hinfo, hinfoV⟩ := hs.not_ok_clear hst
    exact ⟨hhumV, htempV, hinfoV, hhum, htemp, hinfo⟩

end Sys2Proof.Machine

/-! PROOFS. Admission, faults and waiting (60_exceptions.md R135 to R149): the order of a step, the admission
table, that nothing stops the block, and that a busy block waits for its transport. -/

namespace Sys2Proof.Machine

variable {s t : State} {i : Instr} {p : Presented}

/-! ## The order of a step (R138) -/

/-- Settles O16: the decoded case of the step. -/
theorem stepRunsDecodedInstruction : Obligations.StepRunsDecodedInstruction := by
  unfold Obligations.StepRunsDecodedInstruction
  exact fun s c i rest hin hd => step_decoded hin rfl rfl hd

/-- Settles O17: RESET does not look at the pattern; the other two cases of the step have nothing to run. -/
theorem stepWithoutEvent : Obligations.StepWithoutEvent := by
  unfold Obligations.StepWithoutEvent
  refine fun s rest => ⟨fun c hin => ?_, fun hin => step_noEvent hin rfl rfl, step_nothing⟩
  calc step s = .next (resetPin { s with inputs := rest }) := step_rst hin rfl
    _ = step { s with inputs := ⟨true, none⟩ :: rest } :=
      (step_rst (s := { s with inputs := ⟨true, none⟩ :: rest }) rfl rfl).symm

/-! ## Admission (R135, R136) -/

/-- R135's table: phase `q` admits the event `i`. -/
def AdmittedIn (i : Instr) (q : BitVec 2) : Prop :=
  (isHostEvent i = true ∧ q = Config.phaseIdle) ∨ (isTxEvent i = true ∧ q = Config.phaseTx) ∨
    (isRxEvent i = true ∧ q = Config.phaseRx)

theorem exec_host_admitted (hi : isHostEvent i = true) (hp : s.phase = Config.phaseIdle) :
    ∃ t, exec i s = .next t ∧ t.fault = s.fault := by
  cases i with
  | crcInit | crcByte | rdHum | rdTemp | rdBoth | rdInfo => exact ⟨_, if_pos hp, rfl⟩
  | _ => cases hi

/-- R36 item 2 rules out a fourth request byte. -/
theorem exec_tx_admitted (hs : s.Inv) (hi : isTxEvent i = true) (hp : s.phase = Config.phaseTx) :
    ∃ t, exec i s = .next t ∧ t.fault = s.fault := by
  cases i with
  | tTxack =>
    obtain ⟨h3, -⟩ := hs.in_tx hp
    by_cases h2 : s.tidx = 2#2
    · exact ⟨_, exec_tTxack_last hp h2, rfl⟩
    · exact ⟨_, exec_tTxack_more hp (by bv_omega), rfl⟩
  | tTxerr => exact ⟨_, exec_tTxerr_admitted hp, finish_fault ..⟩
  | _ => cases hi

/-- R36 item 3 rules out a byte beyond `RBUF`. -/
theorem exec_rx_admitted (hs : s.Inv) (hi : isRxEvent i = true) (hp : s.phase = Config.phaseRx) :
    ∃ t, exec i s = .next t ∧ t.fault = s.fault := by
  cases i with
  | tRxbyte b =>
    obtain ⟨-, hlt, -⟩ := hs.in_rx hp
    have hr : s.ridx.toNat < 11 := hlt.trans_le (respLen_le s.op)
    by_cases hlast : s.ridx.toNat + 1 = respLen s.op
    · exact ⟨_, exec_tRxbyte_last hp hr hlast b, complete_fault _⟩
    · exact ⟨_, exec_tRxbyte_more hp hr hlast b, rfl⟩
  | tRxerr => exact ⟨_, exec_tRxerr_admitted hp, finish_fault ..⟩
  | _ => cases hi

theorem exec_admitted (hs : s.Inv) (h : AdmittedIn i s.phase) :
    ∃ t, exec i s = .next t ∧ t.fault = s.fault := by
  rcases h with ⟨hi, hp⟩ | ⟨hi, hp⟩ | ⟨hi, hp⟩
  · exact exec_host_admitted hi hp
  · exact exec_tx_admitted hs hi hp
  · exact exec_rx_admitted hs hi hp

/-- An event that the phase does not admit can only record a cause. -/
theorem exec_not_admitted (hi : isEvent i = true) (h : ¬ AdmittedIn i s.phase) :
    ∃ c, exec i s = .next (raiseFault c s) := by
  rw [AdmittedIn, not_or, not_or] at h
  obtain ⟨hhost, htx, hrx⟩ := h
  rw [isEvent, Bool.or_eq_true, Bool.or_eq_true] at hi
  rcases hi with (hi | hi) | hi
  · exact ⟨_, exec_host_refused hi fun hp => hhost ⟨hi, hp⟩⟩
  · exact ⟨_, exec_tx_refused hi fun hp => htx ⟨hi, hp⟩⟩
  · exact ⟨_, exec_rx_refused hi fun hp => hrx ⟨hi, hp⟩⟩

/-- Settles O20: the two sides of the admission check; an illegal word is `raiseFault` by definition. -/
theorem admissionTable : Obligations.AdmissionTable := by
  unfold Obligations.AdmissionTable
  exact ⟨fun _ _ => ⟨exec_host_refused, exec_tx_refused, exec_rx_refused, exec_admitted⟩,
    fun _ _ _ _ => rfl⟩

/-! ## Nothing stops the block (R48, R135, R146) -/

theorem event_answers (hs : s.Inv) (hi : isEvent i = true) : ∃ t, exec i s = .next t := by
  by_cases h : AdmittedIn i s.phase
  · obtain ⟨t, ht, -⟩ := exec_admitted hs h
    exact ⟨t, ht⟩
  · obtain ⟨c, hc⟩ := exec_not_admitted hi h
    exact ⟨_, hc⟩

theorem readBytes_answers (hs : s.Inv) (bytes : List Byte) : ∃ t, readBytes bytes s = .next t := by
  induction bytes generalizing s with
  | nil => exact ⟨s, rfl⟩
  | cons b rest ih =>
    obtain ⟨u, hu⟩ := event_answers (i := .tRxbyte b) hs rfl
    obtain ⟨t, ht⟩ := ih (event_keeps_inv rfl hs hu)
    exact ⟨t, andThen_next.2 ⟨u, hu, ht⟩⟩

/-- A request frame goes out, or is dropped (log 6). -/
theorem emitRequest_answers (op : BitVec 2) (s : State) : ∃ t, emitRequest op s = .next t := by
  rw [emitRequest_eq]
  split_ifs <;> exact ⟨_, rfl⟩

theorem exec_answers (hs : s.Inv) (i : Instr) : ∃ t, exec i s = .next t := by
  cases i with
  | reqHum | reqTemp | reqBoth | reqInfo => exact emitRequest_answers _ s
  | respHum | respTemp | respBoth | respInfo => exact readBytes_answers hs _
  | _ => exact event_answers hs rfl

/-- A pattern that is no row is answered too, unless it is a 24-bit one (R63, R78, R79; logs 8, 9). -/
theorem executeRejected_answers (hs : s.Inv) {c : Code} (hc : ∀ w, c ≠ .request w) :
    ∃ t, executeRejected c s = .next t := by
  cases c with
  | event w => exact ⟨_, rfl⟩
  | request w => exact absurd rfl (hc w)
  | response bytes => exact readBytes_answers hs bytes

theorem decodeRequest_of_mem {w : RequestWord} (h : w ∈ [0x030002#24, 0x030202, 0x030004, 0x030807]) :
    ∃ i, decodeRequest w = .ok i := by
  simp only [List.mem_cons, List.not_mem_nil, or_false] at h
  rcases h with rfl | rfl | rfl | rfl
  · exact ⟨.reqHum, rfl⟩
  · exact ⟨.reqTemp, rfl⟩
  · exact ⟨.reqBoth, rfl⟩
  · exact ⟨.reqInfo, rfl⟩

/-- The only pattern that a step does not answer is a 24-bit one that is no request frame (log 9). -/
theorem step_pattern_answers {c : Code} {rest : List Presented} (hs : s.Inv)
    (hin : s.inputs = ⟨false, some c⟩ :: rest) :
    (∃ t, step s = .next t) ∨ (step s = .refused .requestNeverEmitted ∧
      ∃ w, c = .request w ∧ w ∉ [0x030002#24, 0x030202, 0x030004, 0x030807]) := by
  have hrest : { s with inputs := rest }.Inv := hs.withInputs rest
  cases hd : decode s.op c with
  | ok i =>
    rw [step_decoded hin rfl rfl hd]
    exact .inl (exec_answers hrest i)
  | error r =>
    rw [step_rejected hin rfl rfl hd]
    by_cases hc : ∃ w, c = .request w
    · obtain ⟨w, rfl⟩ := hc
      refine .inr ⟨rfl, w, rfl, fun hw => ?_⟩
      obtain ⟨i, hi⟩ := decodeRequest_of_mem hw
      cases hi.symm.trans hd
    · exact .inl (executeRejected_answers hrest fun w hw => hc ⟨w, hw⟩)

/-- Settles O21: the invariants rule out the stops of the two events that have one, and what is not refused
by log 9 is a run of events. -/
theorem nothingStopsTheBlock : Obligations.NothingStopsTheBlock := by
  unfold Obligations.NothingStopsTheBlock
  refine ⟨fun i s hs => exec_answers hs i, fun s hs => ?_⟩
  rcases hin : s.inputs with _ | ⟨⟨rst, code⟩, rest⟩
  · exact .inl ⟨_, step_nothing hin⟩
  · cases rst with
    | true => exact .inl ⟨_, step_rst hin rfl⟩
    | false =>
      cases code with
      | none => exact .inl ⟨_, step_noEvent hin rfl rfl⟩
      | some c =>
        refine (step_pattern_answers hs hin).imp_right ?_
        rintro ⟨hstep, w, rfl, hw⟩
        exact ⟨hstep, w, rest, rfl, hw⟩

/-! ## The wait for the transport (R149) -/

/-- What may come while a block in phase `q` waits: no RESET, and no event but one that `q` does not admit. -/
def LeavesWaiting (q : BitVec 2) (p : Presented) : Prop :=
  p.rst = false ∧ ∀ c, p.code = some c → ∃ w, c = .event w ∧
    ∀ i, decodeEvent w = .ok i →
      ¬(isTxEvent i = true ∧ q = Config.phaseTx) ∧ ¬(isRxEvent i = true ∧ q = Config.phaseRx)

/-- An event word that is legal stands for an event, not for a frame. -/
theorem isEvent_of_decodeEvent {w : EventWord} (h : decodeEvent w = .ok i) : isEvent i = true := by
  have henc : encode i = .event w := encode_of_decodeEvent h
  cases i with
  | reqHum | reqTemp | reqBoth | reqInfo | respHum | respTemp | respBoth | respInfo => cases henc
  | _ => rfl

/-- A waiting block takes what is presented and at most records a cause. -/
theorem step_waiting {rest : List Presented} (hbusy : s.phase ≠ Config.phaseIdle)
    (hp : LeavesWaiting s.phase p) (hin : s.inputs = p :: rest) :
    ∃ f, step s = .next { s with fault := f, inputs := rest } := by
  obtain ⟨hrst, hwait⟩ := hp
  cases hcode : p.code with
  | none => exact ⟨s.fault, step_noEvent hin hrst hcode⟩
  | some c =>
    obtain ⟨w, rfl, hw⟩ := hwait c hcode
    cases hd : decodeEvent w with
    | ok i =>
      obtain ⟨htx, hrx⟩ := hw i hd
      have hout : ¬ AdmittedIn i s.phase := by
        rintro (⟨-, hidle⟩ | h | h)
        · exact hbusy hidle
        · exact htx h
        · exact hrx h
      obtain ⟨c, hc⟩ := exec_not_admitted (s := { s with inputs := rest }) (isEvent_of_decodeEvent hd) hout
      exact ⟨_, (step_decoded hin hrst hcode hd).trans hc⟩
    | error r => exact ⟨_, step_rejected hin hrst hcode hd⟩

theorem runScript_waiting {script : List Presented} (hbusy : s.phase ≠ Config.phaseIdle)
    (hscript : ∀ p ∈ script, LeavesWaiting s.phase p) :
    ∃ f, runScript script s = .next { s with fault := f, inputs := [] } := by
  induction script generalizing s with
  | nil => exact ⟨s.fault, rfl⟩
  | cons p rest ih =>
    obtain ⟨hp, hrest⟩ := List.forall_mem_cons.1 hscript
    obtain ⟨f, hf⟩ := step_waiting (s := { s with inputs := p :: rest }) hbusy hp rfl
    obtain ⟨g, hg⟩ := ih (s := { s with fault := f }) hbusy hrest
    exact ⟨g, andThen_next.2 ⟨_, hf, hg⟩⟩

/-- Settles O53: each step of the wait changes at most `FAULT`; a busy block has ST_NONE by R36 item 4. -/
theorem hangUntilTransportAnswers : Obligations.HangUntilTransportAnswers := by
  unfold Obligations.HangUntilTransportAnswers
  intro s script hs hphase hscript
  have hbusy : s.phase ≠ Config.phaseIdle := by
    rcases hphase with hp | hp <;> simp [hp]
  obtain ⟨f, hf⟩ := runScript_waiting hbusy hscript
  obtain ⟨hstatus, -⟩ := hs.busy_clear hbusy
  exact ⟨_, hf, rfl, bne_iff_ne.2 hbusy, hstatus⟩

end Sys2Proof.Machine

/-! PROOFS. Reset and hazards (70_reset_and_hazards.md R151 to R162): what RESET writes and shows, the
accumulator that the host and the codec share, and the fault that stays. -/

namespace Sys2Proof.Machine

variable {s t u : State} {i : Instr} {op c : BitVec 2}

/-! ## RESET (R151 to R153) -/

/-- Settles O18: the state is `resetPin` whatever the pattern; it is in IDLE, which admits no transport
event, and has no fault recorded. -/
theorem resetWritesEveryRegister : Obligations.ResetWritesEveryRegister := by
  unfold Obligations.ResetWritesEveryRegister
  refine fun s code rest hin => ⟨_, step_rst hin rfl, rfl, fun i hi => ?_⟩
  rcases hi with hi | hi
  · exact exec_tx_refused hi (by simp)
  · exact exec_rx_refused hi (by simp)

/-- No port reads `RBUF`, the one register in which two reset states can differ. -/
theorem outputs_resetPin (s : State) : outputs (resetPin s) = outputs State.reset := rfl

/-- Settles O19: after RESET from any state the ports are those of the one reset state. -/
theorem resetOutputs : Obligations.ResetOutputs := by
  unfold Obligations.ResetOutputs
  exact fun s => ⟨(outputs_resetPin s).trans (by decide), (outputs_resetPin s).symm⟩

/-! ## The shared accumulator (R157) -/

/-- CRC.BYTE events that follow a run ending in IDLE continue from whatever it left in `ACC`. -/
theorem runScript_then_crcBytes {is : List Instr} (his : ∀ i ∈ is, isEvent i = true)
    (hrun : runScript (is.map shown) s = .next u) (hp : u.phase = Config.phaseIdle) (after : List Byte) :
    runScript (is.map shown ++ after.map fun b => shown (.crcByte b)) s =
      .next { u with acc := crcRun u.acc after } := by
  have hall : ∀ i ∈ is ++ after.map .crcByte, isEvent i = true := List.forall_mem_append.2
    ⟨his, List.forall_mem_map.2 fun _ _ => rfl⟩
  have hscript := runScript_shown hall s
  rw [List.map_append, List.map_map, execAll_append, ← runScript_shown his, hrun] at hscript
  exact hscript.trans (execAll_crcBytes hp after)

/-- The events of a host CRC that a read of `op` interrupts, a read whose request the transport fails. -/
def interruptedCrcEvents (op : BitVec 2) (before : List Byte) : List Instr :=
  .crcInit :: (before.map .crcByte ++ [readEvent op, .tTxerr])

theorem interruptedCrcEvents_isEvent (op : BitVec 2) (before : List Byte) :
    ∀ i ∈ interruptedCrcEvents op before, isEvent i = true := by
  have hcrc : ∀ i ∈ before.map Instr.crcByte, isEvent i = true := List.forall_mem_map.2 fun _ _ => rfl
  have hread : ∀ i ∈ [readEvent op, .tTxerr], isEvent i = true :=
    List.forall_mem_cons.2 ⟨isEvent_readEvent op, List.forall_mem_singleton.2 rfl⟩
  exact List.forall_mem_cons.2 ⟨rfl, List.forall_mem_append.2 ⟨hcrc, hread⟩⟩

theorem interruptedCrcEvents_map_shown (op : BitVec 2) (before : List Byte) :
    (interruptedCrcEvents op before).map shown =
      crcScript before ++ requestScript op 0 ++ [shown .tTxerr] := by
  simp [interruptedCrcEvents, crcScript, requestScript]

theorem execAll_failedRead (hp : s.phase = Config.phaseIdle) (op : BitVec 2) :
    execAll [readEvent op, .tTxerr] s = .next (finish Config.stTransportError (startRead op s)) := by
  rw [execAll, exec_readEvent_idle hp]
  exact andThen_ret.trans (exec_tTxerr_admitted (s := startRead op s) rfl)

/-- The read loads `ACC` anew, so nothing of the running CRC is left. -/
theorem execAll_interruptedCrcEvents (hp : s.phase = Config.phaseIdle) (op : BitVec 2) (before : List Byte) :
    execAll (interruptedCrcEvents op before) s =
      .next (finish Config.stTransportError (startRead op s)) := by
  have hcrc := execAll_crcBytes (s := { s with acc := Config.crcInit }) hp before
  rw [interruptedCrcEvents, execAll, exec_crcInit, if_pos hp]
  calc execAll (before.map .crcByte ++ [readEvent op, .tTxerr]) { s with acc := Config.crcInit }
      = execAll [readEvent op, .tTxerr] { s with acc := crc16 before } := by
        rw [execAll_append, hcrc]; rfl
    _ = .next (finish Config.stTransportError (startRead op s)) :=
        execAll_failedRead (s := { s with acc := crc16 before }) hp op

/-- Settles O44: both runs end in IDLE, where the CRC.BYTE events continue from the `ACC` that the codec left:
0xFFFF of the request, or the CRC of the response. -/
theorem sharedAccumulatorHazard : Obligations.SharedAccumulatorHazard := by
  unfold Obligations.SharedAccumulatorHazard
  refine fun s op before after hp => ⟨?_, fun r hs hlen => ?_⟩
  · have hrun : runScript ((interruptedCrcEvents op before).map shown) s =
        .next (finish Config.stTransportError (startRead op { s with inputs := [] })) :=
      (runScript_shown (interruptedCrcEvents_isEvent op before) s).trans
        (execAll_interruptedCrcEvents (s := { s with inputs := [] }) hp op before)
    rw [← interruptedCrcEvents_map_shown]
    exact ⟨_, runScript_then_crcBytes (interruptedCrcEvents_isEvent op before) hrun rfl after,
      by simp [crc16], by simp, rfl⟩
  · have hrlen : r.length = respLen op := hlen.trans (respLen_eq_count op).symm
    have hcheck : r.length - 2 = crcCheckLen op := by rw [hrlen]; rfl
    obtain ⟨u, hrun, hu⟩ := runScript_transaction_whole hs hp hrlen
    have hacc : (endedBy r u).acc = crc16 (r.take (r.length - 2)) := hcheck ▸ hu.acc
    rw [transactionScript_eq_map] at hrun ⊢
    exact ⟨_, runScript_then_crcBytes transactionEvents_isEvent hrun rfl after, by rw [hacc], hu.fault_eq⟩

/-! ## The first fault (R162) -/

theorem raiseFault_eq_self (hf : s.fault ≠ Config.fNone) : raiseFault c s = s := by
  simp [raiseFault, hf]

theorem FaultKeptOrRecorded.eq_of_ne_zero (h : FaultKeptOrRecorded s t) (hf : s.fault ≠ 0#2) :
    t.fault = s.fault :=
  h.resolve_right fun ⟨h0, _⟩ => hf h0

theorem readBytes_faultKept {bytes : List Byte} (h : readBytes bytes s = .next t) :
    FaultKeptOrRecorded s t :=
  execAll_faultKept (readBytes_eq_execAll bytes s ▸ h)

/-- Only RESET clears a recorded fault, and nothing replaces it. -/
theorem step_fault_eq {code : Option Code} {rest : List Presented} (hin : s.inputs = ⟨false, code⟩ :: rest)
    (hf : s.fault ≠ 0#2) (h : step s = .next t) : t.fault = s.fault := by
  rcases step_next h with ⟨hnil, -⟩ | ⟨p, rest', hcons, hcase⟩
  · cases hin.symm.trans hnil
  · obtain ⟨rfl, rfl⟩ := List.cons.inj (hin.symm.trans hcons)
    rcases hcase with ⟨hrst, -⟩ | ⟨-, -, rfl⟩ | ⟨c, i, -, -, -, hexec⟩ | ⟨w, r, -, -, -, rfl⟩ |
      ⟨bytes, r, -, -, -, hread⟩
    · cases hrst
    · rfl
    · exact (exec_inputs_fault hexec).2.eq_of_ne_zero hf
    · exact if_neg hf
    · exact (readBytes_faultKept hread).eq_of_ne_zero hf

/-- With a fault recorded, an event out of its phase leaves no trace. -/
theorem exec_out_of_phase_eq_self (hf : s.fault ≠ 0#2)
    (hout : (isHostEvent i = true ∧ s.phase ≠ 0#2) ∨ (isTxEvent i = true ∧ s.phase ≠ 1#2) ∨
      (isRxEvent i = true ∧ s.phase ≠ 2#2)) : exec i s = .next s := by
  rcases hout with ⟨hi, hp⟩ | ⟨hi, hp⟩ | ⟨hi, hp⟩
  · rw [exec_host_refused hi hp, raiseFault_eq_self hf]
  · rw [exec_tx_refused hi hp, raiseFault_eq_self hf]
  · rw [exec_rx_refused hi hp, raiseFault_eq_self hf]

/-- Settles O48: no step without `rst` replaces a recorded cause, and `raiseFault` then does nothing. -/
theorem firstFaultSticks : Obligations.FirstFaultSticks := by
  unfold Obligations.FirstFaultSticks
  intro s code rest hin hf
  have hf' : { s with inputs := rest }.fault ≠ 0#2 := hf
  refine ⟨fun t => step_fault_eq hin hf, fun w r hc hd => ?_, fun w i hc hd hout => ?_⟩
  · exact (step_rejected hin rfl hc hd).trans (congrArg _ (raiseFault_eq_self hf'))
  · exact (step_decoded hin rfl hc hd).trans (exec_out_of_phase_eq_self hf' hout)

end Sys2Proof.Machine
